-- ==== Sys2Proof/Word.lean ====
section
/-! DEFINITION. The machine's one data type: the signed 64-bit `WORD` of 00_scope.md R5. -/

namespace Sys2Proof

/-- `WORD` (R5): a signed 64-bit integer. The bit vector is only the carrier: every rule reads a word through
`BitVec.toInt`, and no rule names a bit of it (00_scope.md section 7). DESIGN CHOICE, log 1; safe. -/
abbrev Word := BitVec 64

/-- `WORD_MIN = -2^63` (R5, 93_implementation_defined.md G1). -/
abbrev wordMin : Int := -9223372036854775808

/-- `WORD_MAX = 2^63 - 1` (R5, 93_implementation_defined.md G1). -/
abbrev wordMax : Int := 9223372036854775807

/-- `InWord(v)` (00_scope.md section 7): the integer `v` is a `WORD`. -/
abbrev InWord (v : Int) : Prop := wordMin ≤ v ∧ v ≤ wordMax

/-- The word whose value is `v`. It is applied only to integers with `InWord v`: no rule wraps (R82). -/
def Word.ofInt (v : Int) : Word := BitVec.ofInt 64 v

end Sys2Proof
end

