-- ==== Sys2Proof/Config.lean ====
section
/-! DEFINITION. The implementation parameters of 00_scope.md R5. The spec draws no free value (R7), so there is
none here. `QUEUE_DEPTH` is fixed to unbounded (a list) and `OVERFLOW_POLICY` to the fault `ArithmeticOverflow`. -/

namespace Sys2Proof

/-- The largest `MEM_SIZE` a Machine may be built with, `2^63` (R5, 92_eei_decisions.md D4). With it every address
an operand can name exists: the document's "dynamically growing" memory (R34). -/
def Config.maxMemSize : Nat := 9223372036854775808

/-- The `MEM_SIZE` of `State.reset`. DESIGN CHOICE, log 3; unsafe: the spec gives no default memory size
(91_not_in_source.md N11). -/
def Config.resetMemSize : Nat := Config.maxMemSize

/-- The construction arguments of one Machine (R5, R126). The defaults are the spec's: an empty inbound queue and
a start pointer of 0. `PROGRAM` and `MEM_SIZE` have none. -/
structure Config.Params where
  /-- `PROGRAM`, the initial memory image. -/
  program  : List Word
  /-- `MEM_SIZE`, the number of addressable words. -/
  memSize  : Nat
  /-- `INBOUND0`, the pre-seeded inbound queue, front first. -/
  inbound  : List Word := []
  /-- `START_PTR`, the initial instruction pointer. -/
  startPtr : Nat := 0
  deriving DecidableEq, Repr

/-- The precondition of `construct` (R126): `len(PROGRAM) <= MEM_SIZE <= 2^63`. -/
abbrev Config.Params.Ok (p : Config.Params) : Prop :=
  p.program.length ≤ p.memSize ∧ p.memSize ≤ Config.maxMemSize

end Sys2Proof
end

