-- ==== Sys2Proof/Machine/State.lean ====
section
/-! DEFINITION. The architectural state of one Machine (10_state.md R10), its reset value, and the reasons the
model can stop for. -/

namespace Sys2Proof.Machine

/-- The run-state flag `rs` (10_state.md R16). `suspended` has the one sub-case `AwaitingInput`; the reason of
`faulted` is the diagnostic. -/
inductive RunState where
  | running
  | suspended
  | halted
  | faulted
  deriving DecidableEq, Repr

/-- The six fault causes (60_exceptions.md R145). -/
inductive Cause where
  | unknownOpcode
  | exhaustedMemory
  | immediateWriteTarget
  | invalidMode
  | negativeAddress
  | arithmeticOverflow
  deriving DecidableEq, Repr

/-- The fault diagnostic record (10_state.md R17). -/
structure Diag where
  /-- Which fault. -/
  cause   : Cause
  /-- The address of the faulting instruction's word. -/
  pointer : Nat
  /-- The raw instruction word; `none` only when its own fetch failed. -/
  word    : Option Word
  /-- The detail of R146 to R151. -/
  info    : Option Int
  deriving DecidableEq, Repr

/-- What a `raise <Cause>(info)` carries to fault entry (00_scope.md section 7). Transient, not state. -/
structure Raised where
  cause : Cause
  info  : Int
  deriving DecidableEq, Repr

/-- The contents of `M` (10_state.md R20): the cells that do not hold 0, as (address, word) pairs with strictly
rising addresses. An unlisted address reads 0 (20_memory.md R33). The unit is the whole word: there is no byte view
(R36; log 5). -/
abbrev Memory := List (Nat × Word)

/-- The canonical form: addresses strictly rise and no listed cell holds 0. -/
def Memory.wf : Memory → Bool
  | [] => true
  | [c] => c.2 != 0
  | c :: d :: m => c.2 != 0 && decide (c.1 < d.1) && Memory.wf (d :: m)

/-- The state of one Machine: the seven pieces of 10_state.md R10, and the Machine's `MEM_SIZE`. -/
structure State where
  /-- `M` (R20). -/
  mem     : Memory
  /-- The instruction pointer (R12): between instructions, the address of the next instruction word. -/
  pc      : Nat
  /-- The relative base (R15). -/
  rb      : Word
  /-- The run state (R16). -/
  rs      : RunState
  /-- The fault diagnostic (R17). -/
  diag    : Option Diag
  /-- The inbound FIFO, front first (R18). -/
  inq     : List Word
  /-- The outbound FIFO, front first (R19). -/
  outq    : List Word
  /-- The construction argument `MEM_SIZE` (00_scope.md R5). Not one of the seven: nothing changes it after
  construction. DESIGN CHOICE, log 2; safe. -/
  memSize : Nat
  deriving DecidableEq, Repr

/-- The reasons the MODEL stops with a fault. The spec's own faults are not among them: fault entry is a next state
(60_exceptions.md R156; log 9). -/
inductive Fault where
  /-- Raised by the bounded `run` transaction alone, when the Machine is still Running after the steps given to it
  (47_execution_loop.md R115, 93_implementation_defined.md U11; log 7). Safe: the model stops where the machine goes
  on. No step and no instruction raises it. -/
  | runNotEnded
  deriving DecidableEq, Repr

/-- The reasons the MODEL refuses. -/
inductive Refusal where
  /-- An arm of `exec` that has no meaning yet. No arm answers with it: every instruction has its meaning. Safe. -/
  | notModelled (mnemonic : String)
  /-- Raised by `construct` outside its precondition: no Machine results (48_host_interface.md R126,
  92_eei_decisions.md D19; log 8). Safe. No step and no instruction raises it. -/
  | constructPrecondition
  /-- Raised by a transaction on a Machine the host does not own (48_host_interface.md R134; log 17). Safe. No step and
  no instruction raises it. -/
  | noSuchMachine (index : Nat)
  deriving DecidableEq, Repr

/-- The machine right after reset (10_state.md R22, 70_reset_and_hazards.md R170): the construction of a Machine with
an empty program, an empty inbound queue, the default start pointer and `Config.resetMemSize` words (log 3). -/
def State.reset : State where
  mem     := []
  pc      := 0
  rb      := 0
  rs      := .running
  diag    := none
  inq     := []
  outq    := []
  memSize := Config.resetMemSize

end Sys2Proof.Machine
end

