-- ==== Sys2Proof/Machine/Flags.lean ====
section
/-! DEFINITION. The machine has no status flag, condition code or predicate register (10_state.md R14). What stands
in their place is computed here: the range check of every arithmetic result, the 0 or 1 of a comparison, and the test
of a jump. -/

namespace Sys2Proof.Machine

/-- The result check of ADD, MUL and ARB (41_arithmetic.md R82): the exact result when it is a `WORD`, else the fault
`ArithmeticOverflow` with that result. -/
def inRange (v : Int) : Except Raised Word :=
  if InWord v then .ok (Word.ofInt v) else .error ⟨.arithmeticOverflow, v⟩

/-- The 0 or 1 a comparison stores (44_compare.md R95, R96). -/
def truth (b : Bool) : Word := if b then 1 else 0

/-- `a < b`, signed, on the values themselves (44_compare.md R95). -/
def lessThan (a b : Word) : Bool := decide (a.toInt < b.toInt)

/-- `a = b` (44_compare.md R96). -/
def equals (a b : Word) : Bool := decide (a.toInt = b.toInt)

/-- `a != 0`, the test of JT; JF takes its negation (43_jumps.md R90, R91). -/
def nonZero (a : Word) : Bool := decide (a.toInt ≠ 0)

end Sys2Proof.Machine
end

