-- ==== Sys2Proof/Machine/Ops.lean ====
section
/-! DEFINITION. The named operations on memory, registers and queues, and fault entry. -/

namespace Sys2Proof.Machine

/-! ### Memory (block MEM of 48_host_interface.md R125) -/

/-- `M[a]` of the list alone: an unlisted address holds 0 (20_memory.md R33). -/
def Memory.get : Memory → Nat → Word
  | [], _ => 0
  | c :: m, a => if c.1 = a then c.2 else Memory.get m a

/-- Place a cell at an address the list does not hold, keeping addresses rising. -/
def Memory.place (a : Nat) (v : Word) : Memory → Memory
  | [] => [(a, v)]
  | c :: m => if a < c.1 then (a, v) :: c :: m else c :: Memory.place a v m

/-- `M[a] <- v` (20_memory.md R32): the old cell goes, and a non-zero value is placed. -/
def Memory.set (m : Memory) (a : Nat) (v : Word) : Memory :=
  let rest := m.filter fun c => c.1 != a
  if v = 0 then rest else Memory.place a v rest

/-- The words of a list laid out from an address on (20_memory.md R33). -/
def Memory.load (a : Nat) : List Word → Memory
  | [] => []
  | w :: ws => if w = 0 then Memory.load (a + 1) ws else (a, w) :: Memory.load (a + 1) ws

/-- The contents of cell `a`. -/
def State.cell (s : State) (a : Nat) : Word := s.mem.get a

/-- `MemRead(a, 1)` (20_memory.md R31, R34). -/
def memRead (s : State) (a : Nat) : Except Raised Word :=
  if s.memSize ≤ a then .error ⟨.exhaustedMemory, a⟩ else .ok (s.cell a)

/-- `MemWrite(a, 1, v)`, for an address `EffAddr` has checked (20_memory.md R32). -/
def State.store (s : State) (a : Nat) (v : Word) : State := { s with mem := s.mem.set a v }

/-! ### Control registers -/

/-- `pc <- pc + n`, with no wrap-around (10_state.md R13). -/
def State.advance (s : State) (n : Nat) : State := { s with pc := s.pc + n }

/-- `pc <- target` (43_jumps.md R92). -/
def State.jump (s : State) (target : Nat) : State := { s with pc := target }

/-- `rb <- v` (45_relative_base.md R100). -/
def State.setRb (s : State) (v : Word) : State := { s with rb := v }

/-- `rs <- Suspended` (42_io.md R85). -/
def State.suspend (s : State) : State := { s with rs := .suspended }

/-- `rs <- Halted` (46_halt.md R105). -/
def State.halt (s : State) : State := { s with rs := .halted }

/-- `rs <- Running`, on entry to `run` (47_execution_loop.md R111). -/
def State.resume (s : State) : State := { s with rs := .running }

/-! ### Queues (block IOQ of 48_host_interface.md R125, R135) -/

/-- Leave `q` in the inbound queue: what remains after IN's `pop_front` (42_io.md R85). -/
def State.setInq (s : State) (q : List Word) : State := { s with inq := q }

/-- Leave `q` in the outbound queue: what remains after the host's `pop_output` or `drain_output` (R129, R130). -/
def State.setOutq (s : State) (q : List Word) : State := { s with outq := q }

/-- `push_back(inq, v)` (48_host_interface.md R128). -/
def State.pushIn (s : State) (v : Word) : State := { s with inq := s.inq ++ [v] }

/-- `push_back(outq, v)` (42_io.md R86). -/
def State.pushOut (s : State) (v : Word) : State := { s with outq := s.outq ++ [v] }

/-! ### Faults -/

/-- The numeric code of a cause (60_exceptions.md R145). -/
def Cause.code : Cause → Nat
  | .unknownOpcode => 1
  | .exhaustedMemory => 2
  | .immediateWriteTarget => 3
  | .invalidMode => 4
  | .negativeAddress => 5
  | .arithmeticOverflow => 6

/-- The raw instruction word of the instruction at `pc`, `none` when its fetch fails (10_state.md R17). -/
def State.fetchedWord (s : State) : Option Word :=
  if s.memSize ≤ s.pc then none else some (s.cell s.pc)

/-- Fault entry (60_exceptions.md R156): the diagnostic and the run state are written, nothing else. Every fault of
every instruction goes through it. There is no return from it (R158). -/
def State.faultEntry (s : State) (f : Raised) : State :=
  { s with rs := .faulted, diag := some ⟨f.cause, s.pc, s.fetchedWord, some f.info⟩ }

/-- End an instruction that started in `s`: the state it computed, or fault entry from `s` itself, so that a
faulting instruction has written nothing (60_exceptions.md R155). -/
def settle (s : State) (r : Except Raised State) : Host.Outcome State Fault Refusal :=
  match r with
  | .ok t => .next t
  | .error f => .next (s.faultEntry f)

end Sys2Proof.Machine
end

