-- ==== Sys2Proof/Syntax.lean ====
section
/-! DEFINITION. The instruction set: ten instructions (30_encoding.md R55, R56). An instruction is its opcode with
one mode per parameter the opcode has. The raw operands are NOT part of it: they are fetched one at a time while the
instruction is executed (10_state.md R21, 40_operand_resolution.md R70, R75; log 10). -/

namespace Sys2Proof

/-- The mode digit of a parameter (30_encoding.md R58). -/
inductive Mode where
  /-- Digit 0: the operand is an address. -/
  | position
  /-- Digit 1: the operand is the value. -/
  | immediate
  /-- Digit 2: the operand is an offset from the relative base. -/
  | relative
  /-- Digits 3 to 9: no mode; resolving a parameter under it faults `InvalidMode` (R58). -/
  | reserved (digit : Nat)
  deriving DecidableEq, Repr

/-- The decimal digit a mode is written as (R58). -/
def Mode.digit : Mode → Nat
  | .position => 0
  | .immediate => 1
  | .relative => 2
  | .reserved d => d

/-- What an instruction uses a parameter for (30_encoding.md R55). -/
inductive Role where
  | read
  | write
  deriving DecidableEq, Repr

/-- The ten instructions, one constructor per row of `spec/opcode_table.json`, each with the modes of its
parameters in address order. -/
inductive Instr where
  /-- ADD, opcode 1 (R80). -/
  | add (a b c : Mode)
  /-- MUL, opcode 2 (R81). -/
  | mul (a b c : Mode)
  /-- IN, opcode 3 (R85). -/
  | inp (a : Mode)
  /-- OUT, opcode 4 (R86). -/
  | out (a : Mode)
  /-- JT, opcode 5 (R90). -/
  | jt (a b : Mode)
  /-- JF, opcode 6 (R91). -/
  | jf (a b : Mode)
  /-- LT, opcode 7 (R95). -/
  | lt (a b c : Mode)
  /-- EQ, opcode 8 (R96). -/
  | eq (a b c : Mode)
  /-- ARB, opcode 9 (R100). -/
  | arb (a : Mode)
  /-- HLT, opcode 99 (R105). -/
  | hlt
  deriving DecidableEq, Repr

/-- The opcode column of 30_encoding.md R55. -/
def Instr.opcode : Instr → Nat
  | .add _ _ _ => 1
  | .mul _ _ _ => 2
  | .inp _ => 3
  | .out _ => 4
  | .jt _ _ => 5
  | .jf _ _ => 6
  | .lt _ _ _ => 7
  | .eq _ _ _ => 8
  | .arb _ => 9
  | .hlt => 99

/-- The parameters of an instruction in address order, each with its role (30_encoding.md R55) and mode. -/
def Instr.params : Instr → List (Role × Mode)
  | .add a b c => [(.read, a), (.read, b), (.write, c)]
  | .mul a b c => [(.read, a), (.read, b), (.write, c)]
  | .inp a => [(.write, a)]
  | .out a => [(.read, a)]
  | .jt a b => [(.read, a), (.read, b)]
  | .jf a b => [(.read, a), (.read, b)]
  | .lt a b c => [(.read, a), (.read, b), (.write, c)]
  | .eq a b c => [(.read, a), (.read, b), (.write, c)]
  | .arb a => [(.read, a)]
  | .hlt => []

/-- The length in words: the instruction word and one word per parameter (30_encoding.md R50, R61). -/
def Instr.length (i : Instr) : Nat := 1 + i.params.length

end Sys2Proof
end

