-- ==== Sys2Proof/Machine/Operands.lean ====
section
/-! DEFINITION. The parameter resolver (block RES of 48_host_interface.md R125; 40_operand_resolution.md). Nothing here
changes a state (R74). -/

namespace Sys2Proof.Machine

/-- `EffAddr(v)` (40_operand_resolution.md R73): the three checks in the rule's order. -/
def effAddr (s : State) (v : Int) : Except Raised Nat :=
  if ¬ InWord v then .error ⟨.arithmeticOverflow, v⟩
  else if v < 0 then .error ⟨.negativeAddress, v⟩
  else if s.memSize ≤ v.toNat then .error ⟨.exhaustedMemory, v⟩
  else .ok v.toNat

/-- The raw operand of parameter `k` (40_operand_resolution.md R70). -/
def rawOperand (s : State) (k : Nat) : Except Raised Word := memRead s (s.pc + k)

/-- `RdParam(k, m)` (40_operand_resolution.md R71). -/
def rdParam (s : State) (k : Nat) (m : Mode) : Except Raised Word := do
  let raw ← rawOperand s k
  match m with
  | .position => do
    let a ← effAddr s raw.toInt
    memRead s a
  | .immediate => .ok raw
  | .relative => do
    let a ← effAddr s (s.rb.toInt + raw.toInt)
    memRead s a
  | .reserved d => .error ⟨.invalidMode, 10 * k + d⟩

/-- `WrAddr(k, m)` (40_operand_resolution.md R72). -/
def wrAddr (s : State) (k : Nat) (m : Mode) : Except Raised Nat := do
  let raw ← rawOperand s k
  match m with
  | .position => effAddr s raw.toInt
  | .immediate => .error ⟨.immediateWriteTarget, k⟩
  | .relative => effAddr s (s.rb.toInt + raw.toInt)
  | .reserved d => .error ⟨.invalidMode, 10 * k + d⟩

/-- The check of a taken jump's target (43_jumps.md R92): negative faults, nothing else is checked. -/
def jumpTarget (b : Word) : Except Raised Nat :=
  if b.toInt < 0 then .error ⟨.negativeAddress, b.toInt⟩ else .ok b.toInt.toNat

end Sys2Proof.Machine
end

