-- ==== Sys2Proof/Machine/Arithmetic.lean ====
section
/-! DEFINITION. ADD and MUL (41_arithmetic.md). -/

namespace Sys2Proof.Machine

/-- ADD (R80). -/
def execAdd (ma mb mc : Mode) (s : State) : Host.Outcome State Fault Refusal :=
  settle s do
    let a ← rdParam s 1 ma
    let b ← rdParam s 2 mb
    let c ← wrAddr s 3 mc
    let r ← inRange (a.toInt + b.toInt)
    .ok ((s.store c r).advance 4)

/-- MUL (R81): the exact product. -/
def execMul (ma mb mc : Mode) (s : State) : Host.Outcome State Fault Refusal :=
  settle s do
    let a ← rdParam s 1 ma
    let b ← rdParam s 2 mb
    let c ← wrAddr s 3 mc
    let r ← inRange (a.toInt * b.toInt)
    .ok ((s.store c r).advance 4)

end Sys2Proof.Machine
end

