-- ==== Sys2Proof/Machine/Compare.lean ====
section
/-! DEFINITION. LT and EQ (44_compare.md). -/

namespace Sys2Proof.Machine

/-- LT (R95). -/
def execLt (ma mb mc : Mode) (s : State) : Host.Outcome State Fault Refusal :=
  settle s do
    let a ← rdParam s 1 ma
    let b ← rdParam s 2 mb
    let c ← wrAddr s 3 mc
    .ok ((s.store c (truth (lessThan a b))).advance 4)

/-- EQ (R96). -/
def execEq (ma mb mc : Mode) (s : State) : Host.Outcome State Fault Refusal :=
  settle s do
    let a ← rdParam s 1 ma
    let b ← rdParam s 2 mb
    let c ← wrAddr s 3 mc
    .ok ((s.store c (truth (equals a b))).advance 4)

end Sys2Proof.Machine
end

