-- ==== Sys2Proof/WellFormed.lean ====
section
/-! DEFINITION. Which instruction terms the encoding can express, and which of those resolve their modes. -/

namespace Sys2Proof

/-- A mode is well formed when it is one decimal digit written in one way: `reserved` holds 3 to 9 (R58). -/
def Mode.wf : Mode → Bool
  | .position => true
  | .immediate => true
  | .relative => true
  | .reserved d => decide (3 ≤ d) && decide (d ≤ 9)

/-- An instruction is well formed when each of its modes is: exactly the terms the decoder can answer. -/
def Instr.wf (i : Instr) : Bool := i.params.all fun p => p.2.wf

/-- The accepted modes of a parameter by its role (30_encoding.md R56, R58, R59; `accepted_modes` of the table). -/
def Mode.accepted : Role → Mode → Bool
  | _, .position => true
  | .read, .immediate => true
  | .write, .immediate => false
  | _, .relative => true
  | _, .reserved _ => false

/-- Every mode of the instruction is accepted: its word is among the legal words of 30_encoding.md R56. -/
def Instr.accepted (i : Instr) : Bool := i.params.all fun p => Mode.accepted p.1 p.2

end Sys2Proof
end

