-- ==== Sys2Proof/Decode.lean ====
section
/-! DEFINITION. The instruction decoder (48_host_interface.md R125, block DEC) and the encoder of 30_encoding.md R63. -/

namespace Sys2Proof

/-- Why a word selects no instruction (30_encoding.md R52, R57). -/
inductive DecodeError where
  /-- The word is negative (R52); it holds the word's value. -/
  | negativeWord (w : Int)
  /-- The opcode field is 0 or 10 to 98 (R57); it holds that field. -/
  | unknownOpcode (opcode : Nat)
  deriving DecidableEq, Repr

/-- The `info` of the `UnknownOpcode` fault the executor raises (46_halt.md R106). -/
def DecodeError.info : DecodeError → Int
  | .negativeWord w => w
  | .unknownOpcode n => n

/-- The decimal fields of an instruction word (30_encoding.md R51). -/
structure Fields where
  opcode : Nat
  modeA : Nat
  modeB : Nat
  modeC : Nat
  deriving DecidableEq, Repr

/-- The four formulas of 30_encoding.md R51. -/
def fields (w : Nat) : Fields :=
  ⟨w % 100, w / 100 % 10, w / 1000 % 10, w / 10000 % 10⟩

/-- The mode a digit stands for (30_encoding.md R58). -/
def modeOfDigit : Nat → Mode
  | 0 => .position
  | 1 => .immediate
  | 2 => .relative
  | d => .reserved d

/-- The opcode map of 30_encoding.md R56. Digits of parameters the opcode lacks are dropped (R54). -/
def selectInstr (f : Fields) : Except DecodeError Instr :=
  match f.opcode with
  | 1 => .ok (.add (modeOfDigit f.modeA) (modeOfDigit f.modeB) (modeOfDigit f.modeC))
  | 2 => .ok (.mul (modeOfDigit f.modeA) (modeOfDigit f.modeB) (modeOfDigit f.modeC))
  | 3 => .ok (.inp (modeOfDigit f.modeA))
  | 4 => .ok (.out (modeOfDigit f.modeA))
  | 5 => .ok (.jt (modeOfDigit f.modeA) (modeOfDigit f.modeB))
  | 6 => .ok (.jf (modeOfDigit f.modeA) (modeOfDigit f.modeB))
  | 7 => .ok (.lt (modeOfDigit f.modeA) (modeOfDigit f.modeB) (modeOfDigit f.modeC))
  | 8 => .ok (.eq (modeOfDigit f.modeA) (modeOfDigit f.modeB) (modeOfDigit f.modeC))
  | 9 => .ok (.arb (modeOfDigit f.modeA))
  | 99 => .ok .hlt
  | n => .error (.unknownOpcode n)

/-- The decoder: the instruction a word selects, or why it selects none. It is total and reads nothing but the word
(30_encoding.md R51, R52, R56, R57). -/
def decode (w : Word) : Except DecodeError Instr :=
  if w.toInt < 0 then .error (.negativeWord w.toInt) else selectInstr (fields w.toInt.toNat)

/-- The mode digit of parameter `k` as the encoder writes it: absent parameters contribute 0 (30_encoding.md R63). -/
def Instr.modeDigit (i : Instr) (k : Nat) : Nat :=
  match i.params[k - 1]? with
  | some p => p.2.digit
  | none => 0

/-- The canonical instruction word, `opcode + 100*mode1 + 1000*mode2 + 10000*mode3` (30_encoding.md R63, R67). -/
def encode (i : Instr) : Word :=
  Word.ofInt (i.opcode + 100 * i.modeDigit 1 + 1000 * i.modeDigit 2 + 10000 * i.modeDigit 3 : Nat)

/-- An assembled line: the instruction word and then the raw operands in order (30_encoding.md R50, R63). -/
def assemble (i : Instr) (raws : List Word) : List Word := encode i :: raws

/-- The words of an instruction whose bits are `w`, bit 0 the least significant bit of the first word, 64 bits a
word, bits from `nbits` on zero, as many words as the longest instruction has (30_encoding.md R61). A word's bits are
its two's complement pattern. DESIGN CHOICE, log 16; safe: no rule reads a bit. -/
def tableWords (nbits w : Nat) : List Word :=
  [0, 1, 2, 3].map fun k => BitVec.ofNat 64 (w % 2 ^ nbits / 2 ^ (64 * k))

/-- The instruction the decoder reads from the table's numbering of bits: the first word alone selects it. -/
def decodeTableWord (nbits w : Nat) : Option Instr :=
  match tableWords nbits w with
  | [] => none
  | word :: _ =>
    match decode word with
    | .ok i => some i
    | .error _ => none

end Sys2Proof
end

