-- ==== Sys2Proof/Machine/Halt.lean ====
section
/-! DEFINITION. HLT, and the words that select no instruction (46_halt.md). -/

namespace Sys2Proof.Machine

/-- HLT (R105): the run state alone changes; `pc` keeps the address of the HLT word (log 12). -/
def execHlt (s : State) : Host.Outcome State Fault Refusal := settle s (.ok s.halt)

/-- What a word that selects no instruction raises (R106). -/
def unknownWord (e : DecodeError) : Raised := ⟨.unknownOpcode, e.info⟩

/-- Instruction fetch and decode (47_execution_loop.md R110): the instruction the word at `pc` selects, or the fault
of the fetch (20_memory.md R34) or of an unknown word (R106). -/
def fetch (s : State) : Except Raised Instr := do
  let w ← memRead s s.pc
  match decode w with
  | .ok i => .ok i
  | .error e => .error (unknownWord e)

end Sys2Proof.Machine
end

