-- ==== Sys2Proof/Machine/InOut.lean ====
section
/-! DEFINITION. IN and OUT (42_io.md). -/

namespace Sys2Proof.Machine

/-- IN (R85): the write parameter is resolved before the queue is looked at; an empty queue suspends and changes
nothing but the run state. -/
def execIn (ma : Mode) (s : State) : Host.Outcome State Fault Refusal :=
  settle s do
    let c ← wrAddr s 1 ma
    match s.inq with
    | [] => .ok s.suspend
    | v :: rest => .ok (((s.setInq rest).store c v).advance 2)

/-- OUT (R86). -/
def execOut (ma : Mode) (s : State) : Host.Outcome State Fault Refusal :=
  settle s do
    let a ← rdParam s 1 ma
    .ok ((s.pushOut a).advance 2)

end Sys2Proof.Machine
end

