-- ==== Sys2Proof/Machine/Jumps.lean ====
section
/-! DEFINITION. JT and JF (43_jumps.md). Both parameters are resolved whether or not the jump is taken (R92). -/

namespace Sys2Proof.Machine

/-- The rest of a jump whose parameters are resolved: taken to the target word, or the 3-word advance (R92). -/
def branch (s : State) (taken : Bool) (b : Word) : Except Raised State :=
  if taken then do
    let target ← jumpTarget b
    .ok (s.jump target)
  else .ok (s.advance 3)

/-- JT (R90). -/
def execJt (ma mb : Mode) (s : State) : Host.Outcome State Fault Refusal :=
  settle s do
    let a ← rdParam s 1 ma
    let b ← rdParam s 2 mb
    branch s (nonZero a) b

/-- JF (R91). -/
def execJf (ma mb : Mode) (s : State) : Host.Outcome State Fault Refusal :=
  settle s do
    let a ← rdParam s 1 ma
    let b ← rdParam s 2 mb
    branch s (!nonZero a) b

end Sys2Proof.Machine
end

