-- ==== Sys2Proof/Machine/RelativeBase.lean ====
section
/-! DEFINITION. ARB (45_relative_base.md). -/

namespace Sys2Proof.Machine

/-- ARB (R100): the operand is read at the old relative base. -/
def execArb (ma : Mode) (s : State) : Host.Outcome State Fault Refusal :=
  settle s do
    let a ← rdParam s 1 ma
    let r ← inRange (s.rb.toInt + a.toInt)
    .ok ((s.setRb r).advance 2)

end Sys2Proof.Machine
end

