-- ==== Sys2Proof/Machine/Step.lean ====
section
/-! DEFINITION. One step of the core (47_execution_loop.md R110). -/

namespace Sys2Proof.Machine

/-- `Step` (R110): fetch, decode and execute one instruction while the Machine is Running. A Machine that is not
Running executes nothing: the step leaves it as it is (R112, R114; DESIGN CHOICE, log 6; safe). -/
def step (s : State) : Host.Outcome State Fault Refusal :=
  match s.rs with
  | .running =>
    match fetch s with
    | .ok i => exec i s
    | .error f => .next (s.faultEntry f)
  | .suspended => .next s
  | .halted => .next s
  | .faulted => .next s

/-- `s` with the instruction whose bits are `w` stored where `step` fetches next: its words at `pc` and on, the
Machine Running, and `MEM_SIZE` raised where those words would not fit (log 4). -/
def State.withFetchWord (s : State) (nbits w : Nat) : State :=
  let words := tableWords nbits w
  { s with
    mem := (words.zipIdx).foldl (fun m c => m.set (s.pc + c.2) c.1) s.mem
    rs := .running
    memSize := max s.memSize (s.pc + words.length) }

end Sys2Proof.Machine
end

