-- ==== Sys2Proof/Machine/HostOps.lean ====
section
/-! DEFINITION. The host's transactions on one Machine (48_host_interface.md). Each is atomic and never overlaps a
`run` (R133). -/

namespace Sys2Proof.Machine

/-- `construct(PROGRAM, INBOUND0, MEM_SIZE, START_PTR)` (R126, 10_state.md R22, 70_reset_and_hazards.md R170): a Machine
in its reset state, refused outside the precondition. -/
def construct (p : Config.Params) : Host.Outcome State Fault Refusal :=
  if p.Ok then
    .next
      { mem := Memory.load 0 p.program
        pc := p.startPtr
        rb := 0
        rs := .running
        diag := none
        inq := p.inbound
        outq := []
        memSize := p.memSize }
  else .refused .constructPrecondition

/-- What `run` returns (47_execution_loop.md R111). -/
inductive RunResult where
  | suspended
  | halted
  | faulted (d : Option Diag)
  deriving DecidableEq, Repr

/-- The result of `run` recomputed from the final state (R111); `none` while the Machine is Running. -/
def State.runResult (s : State) : Option RunResult :=
  match s.rs with
  | .running => none
  | .suspended => some .suspended
  | .halted => some .halted
  | .faulted => some (.faulted s.diag)

/-- The loop of `run` (47_execution_loop.md R111), with at most `fuel` steps (R115; log 7). -/
def runLoop : Nat → State → Host.Outcome State Fault Refusal
  | 0, s => if s.rs = .running then .fault .runNotEnded else .next s
  | fuel + 1, s =>
    if s.rs = .running then
      match step s with
      | .next t => runLoop fuel t
      | .fault f => .fault f
      | .refused r => .refused r
    else .next s

/-- `run` (47_execution_loop.md R111, R113, R114) within `fuel` steps: no step on a Halted or Faulted Machine, else
the run state becomes Running and the loop steps until it is something else. -/
def run (fuel : Nat) (s : State) : Host.Outcome State Fault Refusal :=
  match s.rs with
  | .halted => .next s
  | .faulted => .next s
  | .running => runLoop fuel s.resume
  | .suspended => runLoop fuel s.resume

/-- `push_input` (R128). -/
def pushInput (v : Word) (s : State) : State := s.pushIn v

/-- `push_input` of several values, in order (R128). -/
def pushInputs (vs : List Word) (s : State) : State := vs.foldl (fun t v => pushInput v t) s

/-- `pop_output` (R129): the oldest element, if there is one, and the state after. -/
def popOutput (s : State) : Option Word × State :=
  match s.outq with
  | [] => (none, s)
  | v :: rest => (some v, s.setOutq rest)

/-- `drain_output` (R130): the whole outbound queue, oldest first, and the state after. -/
def drainOutput (s : State) : List Word × State := (s.outq, s.setOutq [])

/-- `is_halted` (R131). -/
def isHalted (s : State) : Bool := decide (s.rs = .halted)

/-- Inspection of one memory cell (R132, 20_memory.md R47): `none` at an address that does not exist. -/
def inspectCell (s : State) (a : Nat) : Option Word :=
  if s.memSize ≤ a then none else some (s.cell a)

/-- The transactions of R127 to R131 on an existing Machine. -/
inductive Transaction where
  | run (fuel : Nat)
  | pushInput (v : Word)
  | popOutput
  | drainOutput
  | isHalted
  deriving DecidableEq, Repr

/-- What a transaction answers the host. -/
inductive Reply where
  | ran (r : Option RunResult)
  | pushed
  | popped (v : Option Word)
  | drained (vs : List Word)
  | halted (b : Bool)
  deriving DecidableEq, Repr

/-- One transaction: the reply and the state after it. -/
def transact (op : Transaction) (s : State) : Host.Outcome (Reply × State) Fault Refusal :=
  match op with
  | .run fuel =>
    match Sys2Proof.Machine.run fuel s with
    | .next t => .next (.ran t.runResult, t)
    | .fault f => .fault f
    | .refused r => .refused r
  | .pushInput v => .next (.pushed, Sys2Proof.Machine.pushInput v s)
  | .popOutput => .next (.popped (Sys2Proof.Machine.popOutput s).1, (Sys2Proof.Machine.popOutput s).2)
  | .drainOutput => .next (.drained (Sys2Proof.Machine.drainOutput s).1, (Sys2Proof.Machine.drainOutput s).2)
  | .isHalted => .next (.halted (Sys2Proof.Machine.isHalted s), s)

end Sys2Proof.Machine
end

