-- ==== Sys2Proof/Machine/Fleet.lean ====
section
/-! DEFINITION. Several Machines of one host (48_host_interface.md R134, 60_exceptions.md R165): a list of states that
share nothing, driven one transaction at a time. -/

namespace Sys2Proof.Machine

/-- One transaction on Machine `k` of the host's Machines. -/
def fleetTransact (k : Nat) (op : Transaction) (ms : List State) :
    Host.Outcome (Reply × List State) Fault Refusal :=
  match ms[k]? with
  | none => .refused (.noSuchMachine k)
  | some s =>
    match transact op s with
    | .next (reply, t) => .next (reply, ms.set k t)
    | .fault f => .fault f
    | .refused r => .refused r

/-- The only communication between Machines (R134): the host pops the oldest output of Machine `src` and pushes it to
Machine `dst`; with no output nothing moves. -/
def fleetForward (src dst : Nat) (ms : List State) : Host.Outcome (List State) Fault Refusal :=
  match fleetTransact src .popOutput ms with
  | .next (.popped (some v), ms') =>
    match fleetTransact dst (.pushInput v) ms' with
    | .next (_, ms'') => .next ms''
    | .fault f => .fault f
    | .refused r => .refused r
  | .next (_, ms') => .next ms'
  | .fault f => .fault f
  | .refused r => .refused r

end Sys2Proof.Machine
end

