-- ==== Sys2Proof/Safety.lean ====
section
/-! DEFINITION. The terms claims are stated in: the invariant of a Machine, and what the spec's rules say of a parameter,
a fault and a run, written as relations beside the functions of `Machine/`. -/

namespace Sys2Proof.Safety

open Sys2Proof.Machine

/-- The invariant of a Machine. -/
structure Inv (s : State) : Prop where
  /-- Memory has its canonical form, so that equal memories are equal data. -/
  memWf : s.mem.wf = true
  /-- No cell at or beyond `MEM_SIZE` holds anything (10_state.md R20). -/
  memBound : ∀ c ∈ s.mem, c.1 < s.memSize
  /-- `MEM_SIZE <= 2^63` (00_scope.md R5). -/
  sizeBound : s.memSize ≤ Config.maxMemSize
  /-- `diag` is `none` exactly while the Machine is not Faulted (10_state.md R17). -/
  diagIff : s.diag.isSome = true ↔ s.rs = .faulted
  /-- The diagnostic describes the faulting instruction (R17): its pointer is `pc`, its word is the word there, and only
  the failed fetch itself has no word. -/
  diagPrecise : ∀ d, s.diag = some d →
    d.pointer = s.pc ∧ d.word = s.fetchedWord ∧ d.info.isSome = true ∧
      (d.word = none → d.cause = .exhaustedMemory ∧ d.info = some (s.pc : Int))

/-- The bound of 10_state.md R12 on `pc`, beside the bound on `MEM_SIZE` it rests on. -/
structure PcBounded (s : State) : Prop where
  size : s.memSize ≤ Config.maxMemSize
  pc : s.pc ≤ Config.maxMemSize

/-! ### Parameters (40_operand_resolution.md) -/

/-- Read parameter `k` of the instruction at `pc` has the value given, under the mode given (R71). -/
inductive Reads (s : State) (k : Nat) : Mode → Word → Prop
  | position (a : Nat) : s.pc + k < s.memSize → (s.cell (s.pc + k)).toInt = a → a < s.memSize →
      Reads s k .position (s.cell a)
  | immediate : s.pc + k < s.memSize → Reads s k .immediate (s.cell (s.pc + k))
  | relative (a : Nat) : s.pc + k < s.memSize → s.rb.toInt + (s.cell (s.pc + k)).toInt = a → InWord (a : Int) →
      a < s.memSize → Reads s k .relative (s.cell a)

/-- Write parameter `k` of the instruction at `pc` designates the address given, under the mode given (R72). -/
inductive Designates (s : State) (k : Nat) : Mode → Nat → Prop
  | position (a : Nat) : s.pc + k < s.memSize → (s.cell (s.pc + k)).toInt = a → a < s.memSize →
      Designates s k .position a
  | relative (a : Nat) : s.pc + k < s.memSize → s.rb.toInt + (s.cell (s.pc + k)).toInt = a → InWord (a : Int) →
      a < s.memSize → Designates s k .relative a

/-- What is wrong with a candidate address (R73): the first of the three checks it fails. -/
inductive AddressFaults (s : State) : Int → Cause → Int → Prop
  | overflow (v : Int) : ¬ InWord v → AddressFaults s v .arithmeticOverflow v
  | negative (v : Int) : InWord v → v < 0 → AddressFaults s v .negativeAddress v
  | exhausted (v : Int) : InWord v → (s.memSize : Int) ≤ v → AddressFaults s v .exhaustedMemory v

/-- Read parameter `k` faults with the cause and info given (R71). -/
inductive ReadFaults (s : State) (k : Nat) : Mode → Cause → Int → Prop
  | noWord (m : Mode) : s.memSize ≤ s.pc + k → ReadFaults s k m .exhaustedMemory (s.pc + k : Nat)
  | position (c : Cause) (v : Int) : s.pc + k < s.memSize → AddressFaults s (s.cell (s.pc + k)).toInt c v →
      ReadFaults s k .position c v
  | relative (c : Cause) (v : Int) : s.pc + k < s.memSize →
      AddressFaults s (s.rb.toInt + (s.cell (s.pc + k)).toInt) c v → ReadFaults s k .relative c v
  | reserved (d : Nat) : s.pc + k < s.memSize → ReadFaults s k (.reserved d) .invalidMode (10 * k + d : Nat)

/-- Write parameter `k` faults with the cause and info given (R72). -/
inductive WriteFaults (s : State) (k : Nat) : Mode → Cause → Int → Prop
  | noWord (m : Mode) : s.memSize ≤ s.pc + k → WriteFaults s k m .exhaustedMemory (s.pc + k : Nat)
  | position (c : Cause) (v : Int) : s.pc + k < s.memSize → AddressFaults s (s.cell (s.pc + k)).toInt c v →
      WriteFaults s k .position c v
  | immediate : s.pc + k < s.memSize → WriteFaults s k .immediate .immediateWriteTarget k
  | relative (c : Cause) (v : Int) : s.pc + k < s.memSize →
      AddressFaults s (s.rb.toInt + (s.cell (s.pc + k)).toInt) c v → WriteFaults s k .relative c v
  | reserved (d : Nat) : s.pc + k < s.memSize → WriteFaults s k (.reserved d) .invalidMode (10 * k + d : Nat)

/-- Parameter `k`, in its role, resolves without a fault. -/
def Resolves (s : State) (k : Nat) : Role × Mode → Prop
  | (.read, m) => ∃ v, Reads s k m v
  | (.write, m) => ∃ a, Designates s k m a

/-- Parameter `k`, in its role, faults with the cause and info given. -/
def ParamFaults (s : State) (k : Nat) (p : Role × Mode) (c : Cause) (info : Int) : Prop :=
  match p with
  | (.read, m) => ReadFaults s k m c info
  | (.write, m) => WriteFaults s k m c info

/-- The lowest-numbered faulty parameter of the instruction at `pc` faults with the cause and info given (R75). The
parameter at index `j` of the list is parameter `j + 1`. -/
def FirstFault (i : Instr) (s : State) (c : Cause) (info : Int) : Prop :=
  ∃ j p, i.params[j]? = some p ∧ (∀ j' p', j' < j → i.params[j']? = some p' → Resolves s (j' + 1) p') ∧
    ParamFaults s (j + 1) p c info

/-! ### What a fault and a store leave -/

/-- The state after a fault of the instruction whose word was fetched at `pc` (60_exceptions.md R155, R156): the
diagnostic and the run state, and nothing else. -/
def faulted (s : State) (c : Cause) (info : Int) : State :=
  { s with rs := .faulted, diag := some ⟨c, s.pc, some (s.cell s.pc), some info⟩ }

/-- An instruction whose parameters do not resolve faults with the first fault of R75. -/
def ParametersFaultInOrder (i : Instr) (s : State) : Prop :=
  ∀ c info, s.pc < s.memSize → FirstFault i s c info → exec i s = .next (faulted s c info)

/-- `t` is `s` after an instruction of `n` words that stores the value `v` at address `a` and leaves `q` in the inbound
queue: every other cell and every other piece of state is as before. -/
structure Stores (s t : State) (a : Nat) (v : Int) (n : Nat) (q : List Word) : Prop where
  stored : (t.cell a).toInt = v
  elsewhere : ∀ x, x ≠ a → t.cell x = s.cell x
  pc : t.pc = s.pc + n
  rb : t.rb = s.rb
  rs : t.rs = s.rs
  diag : t.diag = s.diag
  inq : t.inq = q
  outq : t.outq = s.outq
  memSize : t.memSize = s.memSize

/-! ### Words and faults of a step -/

/-- The mode in the decimal digit of the given weight of a word (30_encoding.md R51, R58). -/
def modeAt (w : Word) (weight : Int) : Mode := modeOfDigit (w.toInt / weight % 10).toNat

/-- Every non-negative word with opcode field `n` selects the instruction `build` makes of its three mode digits
(30_encoding.md R51, R56). -/
def SelectedBy (n : Int) (build : Mode → Mode → Mode → Instr) : Prop :=
  ∀ w : Word, 0 ≤ w.toInt → w.toInt % 100 = n → decode w = .ok (build (modeAt w 100) (modeAt w 1000) (modeAt w 10000))

/-- The ten opcodes (30_encoding.md R56). -/
def opcodes : List Int := [1, 2, 3, 4, 5, 6, 7, 8, 9, 99]

/-- The operation itself faults, its parameters being resolved (60_exceptions.md R153 item 4). -/
inductive OperationFaults (s : State) : Instr → Cause → Int → Prop
  | add (ma mb mc : Mode) (a b : Word) (c : Nat) : Reads s 1 ma a → Reads s 2 mb b → Designates s 3 mc c →
      ¬ InWord (a.toInt + b.toInt) → OperationFaults s (.add ma mb mc) .arithmeticOverflow (a.toInt + b.toInt)
  | mul (ma mb mc : Mode) (a b : Word) (c : Nat) : Reads s 1 ma a → Reads s 2 mb b → Designates s 3 mc c →
      ¬ InWord (a.toInt * b.toInt) → OperationFaults s (.mul ma mb mc) .arithmeticOverflow (a.toInt * b.toInt)
  | jt (ma mb : Mode) (a b : Word) : Reads s 1 ma a → Reads s 2 mb b → a.toInt ≠ 0 → b.toInt < 0 →
      OperationFaults s (.jt ma mb) .negativeAddress b.toInt
  | jf (ma mb : Mode) (a b : Word) : Reads s 1 ma a → Reads s 2 mb b → a.toInt = 0 → b.toInt < 0 →
      OperationFaults s (.jf ma mb) .negativeAddress b.toInt
  | arb (ma : Mode) (a : Word) : Reads s 1 ma a → ¬ InWord (s.rb.toInt + a.toInt) →
      OperationFaults s (.arb ma) .arithmeticOverflow (s.rb.toInt + a.toInt)

/-- The fault a step reports, by the ordered checks of 60_exceptions.md R153 items 1 to 4. -/
inductive StepFaults (s : State) : Cause → Int → Prop
  | fetch : s.memSize ≤ s.pc → StepFaults s .exhaustedMemory s.pc
  | negativeWord : s.pc < s.memSize → (s.cell s.pc).toInt < 0 → StepFaults s .unknownOpcode (s.cell s.pc).toInt
  | unknownOpcode : s.pc < s.memSize → 0 ≤ (s.cell s.pc).toInt → (s.cell s.pc).toInt % 100 ∉ opcodes →
      StepFaults s .unknownOpcode ((s.cell s.pc).toInt % 100)
  | parameter (i : Instr) (c : Cause) (info : Int) : s.pc < s.memSize → decode (s.cell s.pc) = .ok i →
      FirstFault i s c info → StepFaults s c info
  | operation (i : Instr) (c : Cause) (info : Int) : s.pc < s.memSize → decode (s.cell s.pc) = .ok i →
      OperationFaults s i c info → StepFaults s c info

/-- The Machine is at an IN that finds the inbound queue empty, its write parameter having resolved (42_io.md R85,
60_exceptions.md R153 item 5). -/
def AtEmptyIn (s : State) : Prop :=
  s.pc < s.memSize ∧ s.inq = [] ∧ ∃ m a, decode (s.cell s.pc) = .ok (.inp m) ∧ Designates s 1 m a

/-- The Machine is at a HLT (46_halt.md R105). -/
def AtHalt (s : State) : Prop := s.pc < s.memSize ∧ decode (s.cell s.pc) = .ok .hlt

/-! ### Runs -/

/-- `run` on `s` returns with the Machine in state `t` (47_execution_loop.md R111, R115). -/
def RunsTo (s t : State) : Prop := ∃ fuel, Machine.run fuel s = .next t

/-- A host session (47_execution_loop.md R118): `run`, and each time the Machine returns Suspended take some of the
output, push a batch of input and `run` again. `Session s pushed taken t`: from `s`, with all the batches `pushed` and
all the output `taken`, the last `run` returned in `t`. -/
inductive Session : State → List Word → List Word → State → Prop
  | last (s t : State) : RunsTo s t → Session s [] [] t
  | resume (s u t : State) (batch now rest pushed taken : List Word) : RunsTo s u → u.rs = .suspended →
      u.outq = now ++ rest → Session (pushInputs batch (u.setOutq rest)) pushed taken t →
      Session s (batch ++ pushed) (now ++ taken) t

/-- `pop_output` until it returns `None`, at most `fuel` times (48_host_interface.md R130). -/
def popAll : Nat → State → List Word × State
  | 0, s => ([], s)
  | fuel + 1, s =>
    match popOutput s with
    | (none, t) => ([], t)
    | (some v, t) => (v :: (popAll fuel t).1, (popAll fuel t).2)

end Sys2Proof.Safety
end

