-- ==== Sys2Proof/Certificates/Slice0/Obligations.lean ====
section
/-! DEFINITION. The statements for the provers. Each docstring names the part of spec/ it formalises, and the spec's own
decisions (92_eei_decisions.md) it rests on. The decisions behind the fault clauses, named there by their short ids: D4 (every
access at or beyond `MEM_SIZE` faults), D5 and D6 (overflow faults), D7 (negative addresses fault), D8 (negative words
fault), D11 (reserved mode digits fault), D12 (the form of the diagnostic), D14 (immediate write targets fault), D16 (the
order of the checks), D17 (IN resolves its address before it looks at its queue). log 14 and log 15 hold them. -/

open Sys2Proof Sys2Proof.Machine Sys2Proof.Safety

/-! ### Encoding -/

/-- 30_encoding.md sections 2 to 4 (the digit fields, the parameters of each opcode, the opcode map): a word of each of
the ten opcodes decodes to the instruction the sections give. The words 1002, 1, 21101, 204, 1105, 99, 301, 1077 and -1
are vectors of 95_test_vectors.md section 2.1; 1006, 1008 and 109 stand in the quine of its section 1.1, 203 in the IN
vectors of its section 2.4, 22107 in the program P2 of its Part 3. The word 1077 has an unknown opcode and selects no
instruction; neither does the negative word -1, by decision D8 (log 14). -/
def Obligations.SampleWordsDecode : Prop :=
  decode 1002 = .ok (.mul .position .immediate .position) ∧
  decode 1 = .ok (.add .position .position .position) ∧
  decode 21101 = .ok (.add .immediate .immediate .relative) ∧
  decode 203 = .ok (.inp .relative) ∧
  decode 204 = .ok (.out .relative) ∧
  decode 1105 = .ok (.jt .immediate .immediate) ∧
  decode 1006 = .ok (.jf .position .immediate) ∧
  decode 22107 = .ok (.lt .immediate .relative .relative) ∧
  decode 1008 = .ok (.eq .position .immediate .position) ∧
  decode 109 = .ok (.arb .immediate) ∧
  decode 99 = .ok .hlt ∧
  decode 301 = .ok (.add (.reserved 3) .position .position) ∧
  decode 1077 = .error (.unknownOpcode 77) ∧
  decode (Word.ofInt (-1)) = .error (.negativeWord (-1))

/-- Decoding the canonical word of a well-formed instruction gives the instruction back (30_encoding.md sections 2, 6). -/
def Obligations.DecodeOfEncode : Prop := ∀ i : Instr, i.wf = true → decode (encode i) = .ok i

/-- 30_encoding.md section 6 (the disassembler): a word that decodes, canonical or not, decodes to a well-formed
instruction, whose canonical word is the word less its unused digits: those above the mode digits of the parameters
the opcode has. -/
def Obligations.CanonicalWordOfDecoded : Prop :=
  ∀ (w : Word) (i : Instr), decode w = .ok i →
    i.wf = true ∧ (encode i).toInt = w.toInt % (100 * 10 ^ i.params.length)

/-- 30_encoding.md section 2 (the ignored digits): two non-negative words that agree in the opcode digits and in the
mode digits of the parameters the opcode has decode to the same instruction. -/
def Obligations.UnusedDigitsAreIgnored : Prop :=
  ∀ (w w' : Word) (i : Instr), decode w = .ok i → 0 ≤ w'.toInt →
    w'.toInt % (100 * 10 ^ i.params.length) = w.toInt % (100 * 10 ^ i.params.length) → decode w' = .ok i

/-- 30_encoding.md sections 4 and 5, 60_exceptions.md section 2: an instruction all of whose modes are accepted never
reports `InvalidMode` or `ImmediateWriteTarget`. One with a mode that is not accepted always ends Faulted, and the fault
is the first one of its parameters in order, which a fault of an earlier parameter may be (decisions D11, D14, D16;
log 14, log 15). -/
def Obligations.AcceptedModesDecideModeFaults : Prop :=
  ∀ (i : Instr) (s t : State), exec i s = .next t →
    (i.accepted = true → s.diag = none → ∀ d, t.diag = some d → d.cause ≠ .invalidMode ∧ d.cause ≠ .immediateWriteTarget) ∧
    (i.accepted = false → t.rs = .faulted ∧
      (s.pc < s.memSize → ∃ c info, FirstFault i s c info ∧ t = faulted s c info))

/-! ### Parameters -/

/-- 40_operand_resolution.md section 2: `EffAddr` makes its three checks in the stated order (decisions D4, D6, D7). -/
def Obligations.EffAddrChecksInOrder : Prop :=
  ∀ (s : State) (v : Int),
    (¬ InWord v → effAddr s v = .error ⟨.arithmeticOverflow, v⟩) ∧
    (InWord v → v < 0 → effAddr s v = .error ⟨.negativeAddress, v⟩) ∧
    (InWord v → 0 ≤ v → (s.memSize : Int) ≤ v → effAddr s v = .error ⟨.exhaustedMemory, v⟩) ∧
    (∀ a : Nat, InWord v → v = a → a < s.memSize → effAddr s v = .ok a)

/-- 40_operand_resolution.md section 3: `RdParam` answers exactly the values and exactly the faults the section gives, for
every mode (decisions D4, D6, D7, D11). -/
def Obligations.ReadParameterIsAsStated : Prop :=
  ∀ (s : State) (k : Nat) (m : Mode),
    (∀ v, rdParam s k m = .ok v ↔ Reads s k m v) ∧
    (∀ c info, rdParam s k m = .error ⟨c, info⟩ ↔ ReadFaults s k m c info)

/-- 40_operand_resolution.md section 4: `WrAddr` answers exactly the addresses and exactly the faults the section gives, for
every mode (decisions D4, D6, D7, D11, D14). -/
def Obligations.WriteParameterIsAsStated : Prop :=
  ∀ (s : State) (k : Nat) (m : Mode),
    (∀ a, wrAddr s k m = .ok a ↔ Designates s k m a) ∧
    (∀ c info, wrAddr s k m = .error ⟨c, info⟩ ↔ WriteFaults s k m c info)

/-! ### The instructions: encoding, faults in order, result and completion -/

/-- 41_arithmetic.md section 2 (ADD): it stores the exact sum, or faults when the sum is outside `WORD` (decision D5); a
parameter that does not resolve faults first (decisions D4, D6, D7, D11, D12, D14, D16). -/
def Obligations.AddStoresExactSum : Prop :=
  SelectedBy 1 (fun ma mb mc => .add ma mb mc) ∧
  ∀ (ma mb mc : Mode) (s : State), ParametersFaultInOrder (.add ma mb mc) s ∧
    ∀ a b c, Reads s 1 ma a → Reads s 2 mb b → Designates s 3 mc c →
      (InWord (a.toInt + b.toInt) →
        ∃ t, exec (.add ma mb mc) s = .next t ∧ Stores s t c (a.toInt + b.toInt) 4 s.inq) ∧
      (¬ InWord (a.toInt + b.toInt) → s.pc < s.memSize →
        exec (.add ma mb mc) s = .next (faulted s .arithmeticOverflow (a.toInt + b.toInt)))

/-- 41_arithmetic.md section 3 (MUL): it stores the exact product, or faults when the product is outside `WORD` (decision
D5); a parameter that does not resolve faults first (decisions D4, D6, D7, D11, D12, D14, D16). -/
def Obligations.MulStoresExactProduct : Prop :=
  SelectedBy 2 (fun ma mb mc => .mul ma mb mc) ∧
  ∀ (ma mb mc : Mode) (s : State), ParametersFaultInOrder (.mul ma mb mc) s ∧
    ∀ a b c, Reads s 1 ma a → Reads s 2 mb b → Designates s 3 mc c →
      (InWord (a.toInt * b.toInt) →
        ∃ t, exec (.mul ma mb mc) s = .next t ∧ Stores s t c (a.toInt * b.toInt) 4 s.inq) ∧
      (¬ InWord (a.toInt * b.toInt) → s.pc < s.memSize →
        exec (.mul ma mb mc) s = .next (faulted s .arithmeticOverflow (a.toInt * b.toInt)))

/-- 42_io.md section 1 (IN): it stores the oldest inbound value, or suspends changing only the run state; a faulty write
parameter faults first, whatever the queue holds (decisions D4, D6, D7, D11, D12, D14, D17). -/
def Obligations.InStoresFrontOrSuspends : Prop :=
  SelectedBy 3 (fun ma _ _ => .inp ma) ∧
  ∀ (ma : Mode) (s : State), ParametersFaultInOrder (.inp ma) s ∧
    ∀ c, Designates s 1 ma c →
      (∀ v rest, s.inq = v :: rest → ∃ t, exec (.inp ma) s = .next t ∧ Stores s t c v.toInt 2 rest) ∧
      (s.inq = [] → exec (.inp ma) s = .next { s with rs := .suspended })

/-- 42_io.md section 2 (OUT): it appends the value to the outbound queue, whatever the queue holds (decision D9); a
parameter that does not resolve faults first (decisions D4, D6, D7, D11, D12). -/
def Obligations.OutAppendsValue : Prop :=
  SelectedBy 4 (fun ma _ _ => .out ma) ∧
  ∀ (ma : Mode) (s : State), ParametersFaultInOrder (.out ma) s ∧
    ∀ a, Reads s 1 ma a → exec (.out ma) s = .next { s with outq := s.outq ++ [a], pc := s.pc + 2 }

/-- 43_jumps.md sections 1 and 2 (JT): it jumps when its condition is not 0, faults on a negative target it would take
(decision D7), and otherwise advances by 3; both parameters are resolved first, in order (decisions D4, D6, D11, D12,
D16). -/
def Obligations.JumpIfTrueBranches : Prop :=
  SelectedBy 5 (fun ma mb _ => .jt ma mb) ∧
  ∀ (ma mb : Mode) (s : State), ParametersFaultInOrder (.jt ma mb) s ∧
    ∀ a b, Reads s 1 ma a → Reads s 2 mb b →
      (∀ x : Nat, a.toInt ≠ 0 → b.toInt = x → exec (.jt ma mb) s = .next { s with pc := x }) ∧
      (a.toInt ≠ 0 → b.toInt < 0 → s.pc < s.memSize →
        exec (.jt ma mb) s = .next (faulted s .negativeAddress b.toInt)) ∧
      (a.toInt = 0 → exec (.jt ma mb) s = .next { s with pc := s.pc + 3 })

/-- 43_jumps.md sections 1 and 3 (JF): it jumps when its condition is 0, faults on a negative target it would take
(decision D7), and otherwise advances by 3; both parameters are resolved first, in order (decisions D4, D6, D11, D12,
D16). -/
def Obligations.JumpIfFalseBranches : Prop :=
  SelectedBy 6 (fun ma mb _ => .jf ma mb) ∧
  ∀ (ma mb : Mode) (s : State), ParametersFaultInOrder (.jf ma mb) s ∧
    ∀ a b, Reads s 1 ma a → Reads s 2 mb b →
      (∀ x : Nat, a.toInt = 0 → b.toInt = x → exec (.jf ma mb) s = .next { s with pc := x }) ∧
      (a.toInt = 0 → b.toInt < 0 → s.pc < s.memSize →
        exec (.jf ma mb) s = .next (faulted s .negativeAddress b.toInt)) ∧
      (a.toInt ≠ 0 → exec (.jf ma mb) s = .next { s with pc := s.pc + 3 })

/-- 43_jumps.md section 1: a jump saves and changes nothing but `pc`; a non-negative target is taken even at or beyond `MEM_SIZE`, where
the NEXT step faults on its fetch. -/
def Obligations.JumpBeyondMemoryFaultsAtFetch : Prop :=
  ∀ (i : Instr) (ma mb : Mode) (s : State) (a b : Word) (x : Nat), s.rs = .running → s.pc < s.memSize →
    decode (s.cell s.pc) = .ok i → (i = .jt ma mb ∧ a.toInt ≠ 0 ∨ i = .jf ma mb ∧ a.toInt = 0) →
    Reads s 1 ma a → Reads s 2 mb b → b.toInt = x → s.memSize ≤ x →
    ∃ t, step s = .next t ∧ t = { s with pc := x } ∧
      step t = .next { t with rs := .faulted, diag := some ⟨.exhaustedMemory, x, none, some (x : Int)⟩ }

/-- 44_compare.md section 1 (LT): it stores 1 when the first value is less than the second as signed integers, else 0; a
parameter that does not resolve faults first (decisions D4, D6, D7, D11, D12, D14, D16). -/
def Obligations.LessThanStoresTruth : Prop :=
  SelectedBy 7 (fun ma mb mc => .lt ma mb mc) ∧
  ∀ (ma mb mc : Mode) (s : State), ParametersFaultInOrder (.lt ma mb mc) s ∧
    ∀ a b c, Reads s 1 ma a → Reads s 2 mb b → Designates s 3 mc c →
      ∃ t, exec (.lt ma mb mc) s = .next t ∧ Stores s t c (if a.toInt < b.toInt then 1 else 0) 4 s.inq

/-- 44_compare.md section 2 (EQ): it stores 1 when the two values are equal, else 0; a parameter that does not resolve
faults first (decisions D4, D6, D7, D11, D12, D14, D16). -/
def Obligations.EqualsStoresTruth : Prop :=
  SelectedBy 8 (fun ma mb mc => .eq ma mb mc) ∧
  ∀ (ma mb mc : Mode) (s : State), ParametersFaultInOrder (.eq ma mb mc) s ∧
    ∀ a b c, Reads s 1 ma a → Reads s 2 mb b → Designates s 3 mc c →
      ∃ t, exec (.eq ma mb mc) s = .next t ∧ Stores s t c (if a.toInt = b.toInt then 1 else 0) 4 s.inq

/-- 45_relative_base.md (ARB): it adds the value, read at the old relative base, to the relative base, or faults when the
sum is outside `WORD` (decision D6); a parameter that does not resolve faults first (decisions D4, D7, D11, D12). -/
def Obligations.AdjustRelativeBaseAdds : Prop :=
  SelectedBy 9 (fun ma _ _ => .arb ma) ∧
  ∀ (ma : Mode) (s : State), ParametersFaultInOrder (.arb ma) s ∧
    ∀ a, Reads s 1 ma a →
      (InWord (s.rb.toInt + a.toInt) →
        ∃ r : Word, r.toInt = s.rb.toInt + a.toInt ∧ exec (.arb ma) s = .next { s with rb := r, pc := s.pc + 2 }) ∧
      (¬ InWord (s.rb.toInt + a.toInt) → s.pc < s.memSize →
        exec (.arb ma) s = .next (faulted s .arithmeticOverflow (s.rb.toInt + a.toInt)))

/-- 46_halt.md section 1 (HLT): it sets the run state and changes nothing else, `pc` included (decision D10, log 12), and
a run that comes to it returns Halted. -/
def Obligations.HaltStops : Prop :=
  SelectedBy 99 (fun _ _ _ => .hlt) ∧
  ∀ s : State, exec .hlt s = .next { s with rs := .halted } ∧
    (s.rs = .running → s.pc < s.memSize → decode (s.cell s.pc) = .ok .hlt → ∀ n,
      transact (.run (n + 1)) s = .next (.ran (some .halted), { s with rs := .halted }))

/-! ### One step -/

/-- 47_execution_loop.md section 1: when the word at `pc` of a Running Machine decodes, a step is the meaning of the
instruction it decodes to. -/
def Obligations.StepRunsDecodedInstr : Prop :=
  ∀ (s : State) (i : Instr), s.rs = .running → s.pc < s.memSize → decode (s.cell s.pc) = .ok i → step s = exec i s

/-- 30_encoding.md sections 2 and 5, 46_halt.md section 2 (decisions D8, D12): a Running Machine whose instruction word is negative, or has an opcode that is none of the ten, faults
`UnknownOpcode` with the word or the opcode, at its first check and with nothing else changed. -/
def Obligations.UnknownWordsFault : Prop :=
  ∀ s : State, s.rs = .running → s.pc < s.memSize →
    ((s.cell s.pc).toInt < 0 → step s = .next (faulted s .unknownOpcode (s.cell s.pc).toInt)) ∧
    (0 ≤ (s.cell s.pc).toInt → (s.cell s.pc).toInt % 100 ∉ opcodes →
      step s = .next (faulted s .unknownOpcode ((s.cell s.pc).toInt % 100)))

/-- 60_exceptions.md section 2: a step of a Running Machine faults with a cause and an info exactly when the ordered
checks give them, with fault entry and nothing else; and it suspends exactly when an IN finds the inbound queue empty
after its parameter has resolved. The checks rest on decisions D4 to D8, D11, D12 and D14 (log 14), their order on
decisions D16 and D17 (log 15). -/
def Obligations.StepFaultsByOrderedChecks : Prop :=
  ∀ s : State, s.rs = .running →
    (∀ c info, StepFaults s c info ↔
      step s = .next { s with
        rs := .faulted
        diag := some ⟨c, s.pc, if s.pc < s.memSize then some (s.cell s.pc) else none, some info⟩ }) ∧
    (AtEmptyIn s ↔ step s = .next { s with rs := .suspended })

/-- 47_execution_loop.md section 3: the complete transition table of the run state. A step of a Running Machine always
answers a next state. It is Faulted exactly when the ordered checks give a fault, with only the diagnostic written beside
the run state; Halted exactly at a HLT, with nothing else changed; Suspended exactly at an IN on an empty queue, with
nothing else changed; and otherwise still Running, as the instruction's rule says and with no diagnostic written. A
Suspended Machine becomes Running by `run`, which steps from there, and keeps its run state under every other
transaction. Halted and Faulted are never left, and only the queues change in them.

What the events are and leave rests on the spec's decisions: when a step faults on D4 to D8, D11, D12, D14 (log 14), D16
and D17 (log 15), `pc` after HLT on D10 (log 12), `run` on a Halted or Faulted Machine on D18 (log 11), the host's
transactions on D20 (log 18). -/
def Obligations.RunStateTransitionTable : Prop :=
  (∀ s : State, s.rs = .running → ∃ t, step s = .next t ∧
    (t.rs = .faulted ↔ ∃ c info, StepFaults s c info) ∧ (t.rs = .faulted → ∃ d, t = { s with rs := .faulted, diag := some d }) ∧
    (t.rs = .halted ↔ AtHalt s) ∧ (t.rs = .halted → t = { s with rs := .halted }) ∧
    (t.rs = .suspended ↔ AtEmptyIn s) ∧ (t.rs = .suspended → t = { s with rs := .suspended }) ∧
    (t.rs = .running → t.diag = s.diag ∧ ∃ i, decode (s.cell s.pc) = .ok i ∧ exec i s = .next t)) ∧
  (∀ s : State, s.rs = .suspended →
    (∀ n, run n s = runLoop n { s with rs := .running }) ∧
    ∀ (op : Transaction) (t : State) (r : Reply), (∀ n, op ≠ .run n) → transact op s = .next (r, t) → t.rs = .suspended) ∧
  (∀ s : State, (s.rs = .halted ∨ s.rs = .faulted) →
    ∀ (op : Transaction) (t : State) (r : Reply), transact op s = .next (r, t) →
      ∃ q q', t = { s with inq := q, outq := q' })

/-- R116: IN on an empty inbound queue is the only suspension point: no other instruction, and no IN with input waiting,
leaves a Running Machine Suspended. -/
def Obligations.OnlyEmptyInSuspends : Prop :=
  ∀ s t : State, s.rs = .running → step s = .next t → t.rs = .suspended →
    s.inq = [] ∧ ∃ m, decode (s.cell s.pc) = .ok (.inp m)

/-- R155: faults are precise. A run that ends Faulted took some number of whole steps to a Running state `u`, and the step
that faulted there changed neither memory, `pc`, the relative base nor a queue. -/
def Obligations.FaultsArePrecise : Prop :=
  ∀ (n : Nat) (s t : State), s.rs = .running → run n s = .next t → t.rs = .faulted →
    ∃ (k : Nat) (u : State), core.run k s = .next u ∧ u.rs = .running ∧ step u = .next t ∧
      t.mem = u.mem ∧ t.pc = u.pc ∧ t.rb = u.rb ∧ t.inq = u.inq ∧ t.outq = u.outq ∧ t.memSize = u.memSize

/-- 10_state.md section 1, the column "written by": a step changes `pc` only by an instruction that completes and is not
HLT; the relative base only by ARB; the run state only by an IN on an empty queue, a HLT or fault entry; the diagnostic
only by fault entry; the inbound queue only by IN; the outbound queue only by OUT; a memory cell only by ADD, MUL, IN, LT
or EQ and only at the address their write parameter designates; and `MEM_SIZE` never. That HLT does not change `pc` is
decision D10 (log 12), and when fault entry happens rests on log 14 and log 15. -/
def Obligations.StateIsWrittenOnlyByItsWriters : Prop :=
  ∀ s t : State, step s = .next t →
    t.memSize = s.memSize ∧
    (t.pc ≠ s.pc → t.rs = .running ∧ ∃ i, decode (s.cell s.pc) = .ok i ∧ i ≠ .hlt) ∧
    (t.rb ≠ s.rb → ∃ m, decode (s.cell s.pc) = .ok (.arb m)) ∧
    (t.rs ≠ s.rs → (t.rs = .suspended ∧ AtEmptyIn s) ∨ (t.rs = .halted ∧ AtHalt s) ∨
      (t.rs = .faulted ∧ ∃ c info, StepFaults s c info)) ∧
    (t.diag ≠ s.diag → t.rs = .faulted ∧ ∃ c info, StepFaults s c info) ∧
    (t.inq ≠ s.inq → ∃ m, decode (s.cell s.pc) = .ok (.inp m)) ∧
    (t.outq ≠ s.outq → ∃ m, decode (s.cell s.pc) = .ok (.out m)) ∧
    (∀ x, t.cell x ≠ s.cell x → ∃ i m k, decode (s.cell s.pc) = .ok i ∧ i.params[k]? = some (.write, m) ∧
      Designates s (k + 1) m x)

/-- 42_io.md section 3, 48_host_interface.md section 4: however long a run lasts, it only takes elements from the front
of the inbound queue and only appends to the outbound queue: nothing is reordered, duplicated or dropped. -/
def Obligations.RunKeepsQueueOrder : Prop :=
  ∀ (fuel : Nat) (s t : State), run fuel s = .next t →
    ∃ used new, s.inq = used ++ t.inq ∧ t.outq = s.outq ++ new

/-! ### Frames -/

/-- What ADD, MUL, LT and EQ leave unchanged (41_arithmetic.md sections 2 and 3, 44_compare.md, 60_exceptions.md section 3):
every cell but the one their write parameter designates, every cell when it designates none or when the instruction
faults, and every register but `pc`, the run state and the diagnostic, which change only in a fault. -/
def Obligations.StoringInstrFrame : Prop :=
  ∀ (i : Instr) (ma mb mc : Mode) (s t : State),
    (i = .add ma mb mc ∨ i = .mul ma mb mc ∨ i = .lt ma mb mc ∨ i = .eq ma mb mc) → exec i s = .next t →
    t.rb = s.rb ∧ t.inq = s.inq ∧ t.outq = s.outq ∧ t.memSize = s.memSize ∧
    (∀ c, wrAddr s 3 mc = .ok c → ∀ x, x ≠ c → t.cell x = s.cell x) ∧
    (∀ f, wrAddr s 3 mc = .error f → ∀ x, t.cell x = s.cell x) ∧
    ((t.rs = s.rs ∧ t.diag = s.diag) ∨ (t.rs = .faulted ∧ t.pc = s.pc ∧ ∀ x, t.cell x = s.cell x))

/-- What IN leaves unchanged (42_io.md section 1, 60_exceptions.md section 3). -/
def Obligations.InFrame : Prop :=
  ∀ (ma : Mode) (s t : State), exec (.inp ma) s = .next t →
    t.rb = s.rb ∧ t.outq = s.outq ∧ t.memSize = s.memSize ∧
    (∀ c, wrAddr s 1 ma = .ok c → ∀ x, x ≠ c → t.cell x = s.cell x) ∧
    (∀ f, wrAddr s 1 ma = .error f → ∀ x, t.cell x = s.cell x) ∧
    ((t.rs = s.rs ∧ t.diag = s.diag ∧ ∃ v, s.inq = v :: t.inq) ∨
      (t.rs = .suspended ∧ t.diag = s.diag ∧ t.inq = s.inq ∧ t.pc = s.pc ∧ ∀ x, t.cell x = s.cell x) ∨
      (t.rs = .faulted ∧ t.inq = s.inq ∧ t.pc = s.pc ∧ ∀ x, t.cell x = s.cell x))

/-- What OUT, JT, JF, ARB and HLT leave unchanged (42_io.md section 2, 43_jumps.md, 45_relative_base.md, 46_halt.md,
60_exceptions.md section 3): all of memory and the inbound queue; the outbound queue but for OUT; the relative base but for ARB; the run state but for HLT
and a fault; the diagnostic but for a fault; `pc` by HLT, which is decision D10 (log 12), and by a fault. -/
def Obligations.NonStoringInstrFrame : Prop :=
  ∀ (i : Instr) (ma mb : Mode) (s t : State),
    (i = .out ma ∨ i = .jt ma mb ∨ i = .jf ma mb ∨ i = .arb ma ∨ i = .hlt) → exec i s = .next t →
    (∀ x, t.cell x = s.cell x) ∧ t.inq = s.inq ∧ t.memSize = s.memSize ∧
    (i ≠ .out ma → t.outq = s.outq) ∧ (i ≠ .arb ma → t.rb = s.rb) ∧
    ((t.rs = s.rs ∧ t.diag = s.diag ∧ i ≠ .hlt) ∨ (t.rs = .halted ∧ t.diag = s.diag ∧ i = .hlt ∧ t.pc = s.pc) ∨
      (t.rs = .faulted ∧ i ≠ .hlt ∧ t.pc = s.pc ∧ t.rb = s.rb ∧ t.outq = s.outq))

/-! ### Reset and invariants -/

/-- R33: a constructed memory holds the program from address 0 and 0 in every cell above it, and reads so. -/
def Obligations.ConstructedMemoryIsZeroFilled : Prop :=
  ∀ (p : Config.Params) (t : State), construct p = .next t →
    (∀ i w, p.program[i]? = some w → memRead t i = .ok w) ∧
    (∀ i, p.program.length ≤ i → i < p.memSize → memRead t i = .ok 0)

/-- 10_state.md section 9: what construction leaves in every register and queue, for all arguments that meet the
precondition. The spec derives `diag` and the empty outbound queue (R22's source column). -/
def Obligations.ConstructionGivesResetValues : Prop :=
  ∀ p : Config.Params, p.program.length ≤ p.memSize → p.memSize ≤ 2 ^ 63 → ∃ t, construct p = .next t ∧
    t.pc = p.startPtr ∧ t.rb = 0 ∧ t.rs = .running ∧ t.diag = none ∧ t.inq = p.inbound ∧ t.outq = [] ∧
    t.memSize = p.memSize

/-- 48_host_interface.md section 2, D19: a construction outside the precondition gives no Machine. That it answers the
refusal `constructPrecondition` is the model's (log 8). -/
def Obligations.ConstructionOutsidePreconditionIsRefused : Prop :=
  ∀ p : Config.Params, (p.memSize < p.program.length ∨ 2 ^ 63 < p.memSize) →
    construct p = .refused .constructPrecondition

/-- The Machine of `State.reset` is the construction with no program, no input and the default start pointer. That it
has the largest memory is the model's choice (log 3), so no rule is cited for that clause. -/
def Obligations.ResetIsEmptyConstruction : Prop :=
  (∃ n, construct { program := [], memSize := n } = .next State.reset) ∧ (∀ x, State.reset.cell x = 0)

/-- The invariant holds of `State.reset`. -/
def Obligations.InvHoldsAtReset : Prop := Inv State.reset

/-- The invariant holds of every constructed Machine. -/
def Obligations.InvHoldsAtConstruction : Prop := ∀ (p : Config.Params) (t : State), construct p = .next t → Inv t

/-- Every step keeps the invariant: memory canonical and inside `MEM_SIZE`, the diagnostic present exactly while Faulted
and describing the faulting instruction (10_state.md section 5, 60_exceptions.md section 3). -/
def Obligations.InvKeptByEveryStep : Prop := ∀ s t : State, Inv s → step s = .next t → Inv t

/-- Every transaction of the host keeps the invariant and `MEM_SIZE`. Beside `run`, whose reply is the result recomputed
from the final state, each writes only its own end of its one queue (48_host_interface.md sections 2 and 4): `push_input`
the back of the inbound queue, `pop_output` the front of the outbound queue, `drain_output` all of it; and `is_halted`
writes nothing. The exact forms of `push_input`, `drain_output` and `is_halted` are decision D20 (log 18), that there is
no other transaction is decision D13 (log 18), and `run` on a stopped Machine is decision D18 (log 11). -/
def Obligations.InvKeptByEveryTransaction : Prop :=
  ∀ (op : Transaction) (s t : State) (r : Reply), Inv s → transact op s = .next (r, t) →
    Inv t ∧ t.memSize = s.memSize ∧
      (∀ n, op = .run n → r = .ran t.runResult) ∧
      (∀ v, op = .pushInput v → r = .pushed ∧ t = { s with inq := s.inq ++ [v] }) ∧
      (op = .popOutput → r = .popped s.outq.head? ∧ t = { s with outq := s.outq.tail }) ∧
      (op = .drainOutput → r = .drained s.outq ∧ t = { s with outq := [] }) ∧
      (op = .isHalted → r = .halted (decide (s.rs = .halted)) ∧ t = s)

/-- 10_state.md section 3: a Machine started inside the bound never has a `pc` above `2^63`. -/
def Obligations.PcBoundKeptByEveryStep : Prop := ∀ s t : State, PcBounded s → step s = .next t → PcBounded t

/-! ### Runs and the host -/

/-- 47_execution_loop.md sections 2 and 3: `run` returns only a Machine that is not Running, and more steps allowed do not change what it
returns. -/
def Obligations.RunReturnsStopped : Prop :=
  ∀ (n : Nat) (s t : State), run n s = .next t →
    t.rs ≠ .running ∧ ∀ m, n ≤ m → run m s = .next t

/-- 47_execution_loop.md section 5 (decision D18, log 11): `run` on a Halted or Faulted Machine executes no step and changes no state, and returns the same terminal
result. -/
def Obligations.RunOnTerminalDoesNothing : Prop :=
  ∀ (n : Nat) (s : State),
    (s.rs = .halted → transact (.run n) s = .next (.ran (some .halted), s)) ∧
    (s.rs = .faulted → transact (.run n) s = .next (.ran (some (.faulted s.diag)), s))

/-- 47_execution_loop.md section 4: `run` on a Machine suspended at an IN executes that IN again: with input waiting it completes and the run goes
on from there, without input the Machine is as before. -/
def Obligations.RunResumesAtTheSuspendedIn : Prop :=
  ∀ (s : State) (m : Mode) (a n : Nat), s.rs = .suspended → s.pc < s.memSize →
    decode (s.cell s.pc) = .ok (.inp m) → Designates s 1 m a →
    (s.inq = [] → run (n + 1) s = .next s) ∧
    (∀ v rest, s.inq = v :: rest → ∃ t, Stores { s with rs := .running } t a v.toInt 2 rest ∧ run (n + 1) s = runLoop n t)

/-- R118: suspend and resume is transparent. Whatever a session of runs, pushes and takings ends in, one `run` with all
the input in the queue from the start ends in the same state, with what was taken followed by what remains in its
outbound queue. And the other way round: where one `run` with all the input returns, the first run of a session returns,
and so does every later one, whatever was pushed of that input and taken so far. -/
def Obligations.SuspendResumeIsTransparent : Prop :=
  ∀ s : State, (s.rs = .running ∨ s.rs = .suspended) →
    (∀ (t : State) (pushed taken : List Word), Session s pushed taken t →
      ∃ u, RunsTo (pushInputs pushed s) u ∧ u = { t with outq := taken ++ t.outq } ∧
        ∀ u', RunsTo (pushInputs pushed s) u' → u' = u) ∧
    ∀ (all : List Word) (u : State), RunsTo (pushInputs all s) u →
      (∃ t, RunsTo s t) ∧
      ∀ (t : State) (pushed taken batch later now rest : List Word), Session s pushed taken t → t.rs = .suspended →
        all = pushed ++ batch ++ later → t.outq = now ++ rest →
        ∃ t', RunsTo (pushInputs batch (t.setOutq rest)) t'

/-- The model's steps are the spec's run: from a Running Machine, `run` within `n` steps returns `t` exactly when the
`n`-fold step of the host's interface is at `t` and `t` is not Running (47_execution_loop.md section 2; that stopped
Machines stay as they are under a step is log 6). -/
def Obligations.RunIsIteratedStep : Prop :=
  ∀ (n : Nat) (s t : State), s.rs = .running →
    (run n s = .next t ↔ core.run n s = .next t ∧ t.rs ≠ .running)

/-- 48_host_interface.md section 2 (decision D20): `push_input` of any values appends them in push order, in every run state, and changes nothing else. -/
def Obligations.PushInputAppends : Prop :=
  ∀ (vs : List Word) (s : State), pushInputs vs s = { s with inq := s.inq ++ vs }

/-- 48_host_interface.md section 2 (decision D20): `drain_output` returns all of the outbound queue, oldest first, and is what popping until `None` collects and
leaves. -/
def Obligations.DrainIsRepeatedPop : Prop :=
  ∀ (s : State) (fuel : Nat), s.outq.length ≤ fuel →
    drainOutput s = (s.outq, { s with outq := [] }) ∧ popAll fuel s = drainOutput s ∧ (popOutput (popAll fuel s).2).1 = none

/-- 48_host_interface.md section 5: a transaction on one Machine of a host leaves every other Machine as it was, and
does to that Machine what it does to it alone. -/
def Obligations.MachinesAreIndependent : Prop :=
  ∀ (k : Nat) (op : Transaction) (ms ms' : List State) (r : Reply), fleetTransact k op ms = .next (r, ms') →
    ms'.length = ms.length ∧ (∀ j, j ≠ k → ms'[j]? = ms[j]?) ∧
    ∃ s t, ms[k]? = some s ∧ transact op s = .next (r, t) ∧ ms'[k]? = some t

/-- 48_host_interface.md section 5: forwarding moves the oldest output value of one Machine to the back of another's
inbound queue, and touches nothing else. -/
def Obligations.ForwardMovesOneValue : Prop :=
  ∀ (src dst : Nat) (ms : List State) (a b : State) (v : Word) (rest : List Word), src ≠ dst →
    ms[src]? = some a → ms[dst]? = some b → a.outq = v :: rest →
    ∃ ms', fleetForward src dst ms = .next ms' ∧ ms'[src]? = some { a with outq := rest } ∧
      ms'[dst]? = some { b with inq := b.inq ++ [v] } ∧ ∀ j, j ≠ src → j ≠ dst → ms'[j]? = ms[j]?
end

