-- ==== Sys2Proof/Laws/State.lean ====
section
/-! SUPPORT. What each named update of the state does to each field. -/

namespace Sys2Proof.Machine

@[simp] theorem State.store_mem (s : State) (a : Nat) (v : Word) :  (s.store a v).mem = s.mem.set a v := rfl
@[simp] theorem State.store_pc (s : State) (a : Nat) (v : Word) :  (s.store a v).pc = s.pc := rfl
@[simp] theorem State.store_rb (s : State) (a : Nat) (v : Word) :  (s.store a v).rb = s.rb := rfl
@[simp] theorem State.store_rs (s : State) (a : Nat) (v : Word) :  (s.store a v).rs = s.rs := rfl
@[simp] theorem State.store_diag (s : State) (a : Nat) (v : Word) :  (s.store a v).diag = s.diag := rfl
@[simp] theorem State.store_inq (s : State) (a : Nat) (v : Word) :  (s.store a v).inq = s.inq := rfl
@[simp] theorem State.store_outq (s : State) (a : Nat) (v : Word) :  (s.store a v).outq = s.outq := rfl
@[simp] theorem State.store_memSize (s : State) (a : Nat) (v : Word) :  (s.store a v).memSize = s.memSize := rfl

@[simp] theorem State.advance_mem (s : State) (n : Nat) :  (s.advance n).mem = s.mem := rfl
@[simp] theorem State.advance_pc (s : State) (n : Nat) :  (s.advance n).pc = s.pc + n := rfl
@[simp] theorem State.advance_rb (s : State) (n : Nat) :  (s.advance n).rb = s.rb := rfl
@[simp] theorem State.advance_rs (s : State) (n : Nat) :  (s.advance n).rs = s.rs := rfl
@[simp] theorem State.advance_diag (s : State) (n : Nat) :  (s.advance n).diag = s.diag := rfl
@[simp] theorem State.advance_inq (s : State) (n : Nat) :  (s.advance n).inq = s.inq := rfl
@[simp] theorem State.advance_outq (s : State) (n : Nat) :  (s.advance n).outq = s.outq := rfl
@[simp] theorem State.advance_memSize (s : State) (n : Nat) :  (s.advance n).memSize = s.memSize := rfl

@[simp] theorem State.jump_mem (s : State) (a : Nat) :  (s.jump a).mem = s.mem := rfl
@[simp] theorem State.jump_pc (s : State) (a : Nat) :  (s.jump a).pc = a := rfl
@[simp] theorem State.jump_rb (s : State) (a : Nat) :  (s.jump a).rb = s.rb := rfl
@[simp] theorem State.jump_rs (s : State) (a : Nat) :  (s.jump a).rs = s.rs := rfl
@[simp] theorem State.jump_diag (s : State) (a : Nat) :  (s.jump a).diag = s.diag := rfl
@[simp] theorem State.jump_inq (s : State) (a : Nat) :  (s.jump a).inq = s.inq := rfl
@[simp] theorem State.jump_outq (s : State) (a : Nat) :  (s.jump a).outq = s.outq := rfl
@[simp] theorem State.jump_memSize (s : State) (a : Nat) :  (s.jump a).memSize = s.memSize := rfl

@[simp] theorem State.setRb_mem (s : State) (v : Word) :  (s.setRb v).mem = s.mem := rfl
@[simp] theorem State.setRb_pc (s : State) (v : Word) :  (s.setRb v).pc = s.pc := rfl
@[simp] theorem State.setRb_rb (s : State) (v : Word) :  (s.setRb v).rb = v := rfl
@[simp] theorem State.setRb_rs (s : State) (v : Word) :  (s.setRb v).rs = s.rs := rfl
@[simp] theorem State.setRb_diag (s : State) (v : Word) :  (s.setRb v).diag = s.diag := rfl
@[simp] theorem State.setRb_inq (s : State) (v : Word) :  (s.setRb v).inq = s.inq := rfl
@[simp] theorem State.setRb_outq (s : State) (v : Word) :  (s.setRb v).outq = s.outq := rfl
@[simp] theorem State.setRb_memSize (s : State) (v : Word) :  (s.setRb v).memSize = s.memSize := rfl

@[simp] theorem State.suspend_mem (s : State) :  (s.suspend).mem = s.mem := rfl
@[simp] theorem State.suspend_pc (s : State) :  (s.suspend).pc = s.pc := rfl
@[simp] theorem State.suspend_rb (s : State) :  (s.suspend).rb = s.rb := rfl
@[simp] theorem State.suspend_rs (s : State) :  (s.suspend).rs = .suspended := rfl
@[simp] theorem State.suspend_diag (s : State) :  (s.suspend).diag = s.diag := rfl
@[simp] theorem State.suspend_inq (s : State) :  (s.suspend).inq = s.inq := rfl
@[simp] theorem State.suspend_outq (s : State) :  (s.suspend).outq = s.outq := rfl
@[simp] theorem State.suspend_memSize (s : State) :  (s.suspend).memSize = s.memSize := rfl

@[simp] theorem State.halt_mem (s : State) :  (s.halt).mem = s.mem := rfl
@[simp] theorem State.halt_pc (s : State) :  (s.halt).pc = s.pc := rfl
@[simp] theorem State.halt_rb (s : State) :  (s.halt).rb = s.rb := rfl
@[simp] theorem State.halt_rs (s : State) :  (s.halt).rs = .halted := rfl
@[simp] theorem State.halt_diag (s : State) :  (s.halt).diag = s.diag := rfl
@[simp] theorem State.halt_inq (s : State) :  (s.halt).inq = s.inq := rfl
@[simp] theorem State.halt_outq (s : State) :  (s.halt).outq = s.outq := rfl
@[simp] theorem State.halt_memSize (s : State) :  (s.halt).memSize = s.memSize := rfl

@[simp] theorem State.resume_mem (s : State) :  (s.resume).mem = s.mem := rfl
@[simp] theorem State.resume_pc (s : State) :  (s.resume).pc = s.pc := rfl
@[simp] theorem State.resume_rb (s : State) :  (s.resume).rb = s.rb := rfl
@[simp] theorem State.resume_rs (s : State) :  (s.resume).rs = .running := rfl
@[simp] theorem State.resume_diag (s : State) :  (s.resume).diag = s.diag := rfl
@[simp] theorem State.resume_inq (s : State) :  (s.resume).inq = s.inq := rfl
@[simp] theorem State.resume_outq (s : State) :  (s.resume).outq = s.outq := rfl
@[simp] theorem State.resume_memSize (s : State) :  (s.resume).memSize = s.memSize := rfl

@[simp] theorem State.setInq_mem (s : State) (q : List Word) :  (s.setInq q).mem = s.mem := rfl
@[simp] theorem State.setInq_pc (s : State) (q : List Word) :  (s.setInq q).pc = s.pc := rfl
@[simp] theorem State.setInq_rb (s : State) (q : List Word) :  (s.setInq q).rb = s.rb := rfl
@[simp] theorem State.setInq_rs (s : State) (q : List Word) :  (s.setInq q).rs = s.rs := rfl
@[simp] theorem State.setInq_diag (s : State) (q : List Word) :  (s.setInq q).diag = s.diag := rfl
@[simp] theorem State.setInq_inq (s : State) (q : List Word) :  (s.setInq q).inq = q := rfl
@[simp] theorem State.setInq_outq (s : State) (q : List Word) :  (s.setInq q).outq = s.outq := rfl
@[simp] theorem State.setInq_memSize (s : State) (q : List Word) :  (s.setInq q).memSize = s.memSize := rfl

@[simp] theorem State.setOutq_mem (s : State) (q : List Word) :  (s.setOutq q).mem = s.mem := rfl
@[simp] theorem State.setOutq_pc (s : State) (q : List Word) :  (s.setOutq q).pc = s.pc := rfl
@[simp] theorem State.setOutq_rb (s : State) (q : List Word) :  (s.setOutq q).rb = s.rb := rfl
@[simp] theorem State.setOutq_rs (s : State) (q : List Word) :  (s.setOutq q).rs = s.rs := rfl
@[simp] theorem State.setOutq_diag (s : State) (q : List Word) :  (s.setOutq q).diag = s.diag := rfl
@[simp] theorem State.setOutq_inq (s : State) (q : List Word) :  (s.setOutq q).inq = s.inq := rfl
@[simp] theorem State.setOutq_outq (s : State) (q : List Word) :  (s.setOutq q).outq = q := rfl
@[simp] theorem State.setOutq_memSize (s : State) (q : List Word) :  (s.setOutq q).memSize = s.memSize := rfl

@[simp] theorem State.pushIn_mem (s : State) (v : Word) :  (s.pushIn v).mem = s.mem := rfl
@[simp] theorem State.pushIn_pc (s : State) (v : Word) :  (s.pushIn v).pc = s.pc := rfl
@[simp] theorem State.pushIn_rb (s : State) (v : Word) :  (s.pushIn v).rb = s.rb := rfl
@[simp] theorem State.pushIn_rs (s : State) (v : Word) :  (s.pushIn v).rs = s.rs := rfl
@[simp] theorem State.pushIn_diag (s : State) (v : Word) :  (s.pushIn v).diag = s.diag := rfl
@[simp] theorem State.pushIn_inq (s : State) (v : Word) :  (s.pushIn v).inq = s.inq ++ [v] := rfl
@[simp] theorem State.pushIn_outq (s : State) (v : Word) :  (s.pushIn v).outq = s.outq := rfl
@[simp] theorem State.pushIn_memSize (s : State) (v : Word) :  (s.pushIn v).memSize = s.memSize := rfl

@[simp] theorem State.pushOut_mem (s : State) (v : Word) :  (s.pushOut v).mem = s.mem := rfl
@[simp] theorem State.pushOut_pc (s : State) (v : Word) :  (s.pushOut v).pc = s.pc := rfl
@[simp] theorem State.pushOut_rb (s : State) (v : Word) :  (s.pushOut v).rb = s.rb := rfl
@[simp] theorem State.pushOut_rs (s : State) (v : Word) :  (s.pushOut v).rs = s.rs := rfl
@[simp] theorem State.pushOut_diag (s : State) (v : Word) :  (s.pushOut v).diag = s.diag := rfl
@[simp] theorem State.pushOut_inq (s : State) (v : Word) :  (s.pushOut v).inq = s.inq := rfl
@[simp] theorem State.pushOut_outq (s : State) (v : Word) :  (s.pushOut v).outq = s.outq ++ [v] := rfl
@[simp] theorem State.pushOut_memSize (s : State) (v : Word) :  (s.pushOut v).memSize = s.memSize := rfl

@[simp] theorem State.faultEntry_mem (s : State) (f : Raised) :  (s.faultEntry f).mem = s.mem := rfl
@[simp] theorem State.faultEntry_pc (s : State) (f : Raised) :  (s.faultEntry f).pc = s.pc := rfl
@[simp] theorem State.faultEntry_rb (s : State) (f : Raised) :  (s.faultEntry f).rb = s.rb := rfl
@[simp] theorem State.faultEntry_rs (s : State) (f : Raised) :  (s.faultEntry f).rs = .faulted := rfl
@[simp] theorem State.faultEntry_diag (s : State) (f : Raised) :  (s.faultEntry f).diag = some ⟨f.cause, s.pc, s.fetchedWord, some f.info⟩ := rfl
@[simp] theorem State.faultEntry_inq (s : State) (f : Raised) :  (s.faultEntry f).inq = s.inq := rfl
@[simp] theorem State.faultEntry_outq (s : State) (f : Raised) :  (s.faultEntry f).outq = s.outq := rfl
@[simp] theorem State.faultEntry_memSize (s : State) (f : Raised) :  (s.faultEntry f).memSize = s.memSize := rfl

/-! The contents of a cell depend on the memory alone. -/

@[simp] theorem State.advance_cell (s : State) (n : Nat) (x : Nat) : (s.advance n).cell x = s.cell x := rfl
@[simp] theorem State.jump_cell (s : State) (a : Nat) (x : Nat) : (s.jump a).cell x = s.cell x := rfl
@[simp] theorem State.setRb_cell (s : State) (v : Word) (x : Nat) : (s.setRb v).cell x = s.cell x := rfl
@[simp] theorem State.suspend_cell (s : State) (x : Nat) : (s.suspend).cell x = s.cell x := rfl
@[simp] theorem State.halt_cell (s : State) (x : Nat) : (s.halt).cell x = s.cell x := rfl
@[simp] theorem State.resume_cell (s : State) (x : Nat) : (s.resume).cell x = s.cell x := rfl
@[simp] theorem State.setInq_cell (s : State) (q : List Word) (x : Nat) : (s.setInq q).cell x = s.cell x := rfl
@[simp] theorem State.setOutq_cell (s : State) (q : List Word) (x : Nat) : (s.setOutq q).cell x = s.cell x := rfl
@[simp] theorem State.pushIn_cell (s : State) (v : Word) (x : Nat) : (s.pushIn v).cell x = s.cell x := rfl
@[simp] theorem State.pushOut_cell (s : State) (v : Word) (x : Nat) : (s.pushOut v).cell x = s.cell x := rfl
@[simp] theorem State.faultEntry_cell (s : State) (f : Raised) (x : Nat) : (s.faultEntry f).cell x = s.cell x := rfl

end Sys2Proof.Machine
end

