-- ==== Sys2Proof/Laws/Memory.lean ====
section
/-! SUPPORT. The laws of memory: a read after a write, and that every memory operation keeps the canonical form. -/

namespace Sys2Proof.Machine

/-- Every listed address lies at or above `lo`. -/
def Memory.above (lo : Nat) (m : Memory) : Prop := ∀ c ∈ m, lo ≤ c.1

theorem Memory.wf_cons (c : Nat × Word) (m : Memory) :
    Memory.wf (c :: m) = true ↔ c.2 ≠ 0 ∧ Memory.wf m = true ∧ Memory.above (c.1 + 1) m := by
  induction m generalizing c with
  | nil => simp [Memory.wf, Memory.above]
  | cons d m ih =>
    have hd := ih d
    simp only [Memory.wf, Memory.above, List.mem_cons, forall_eq_or_imp, Bool.and_eq_true, bne_iff_ne, ne_eq,
      decide_eq_true_eq] at hd ⊢
    constructor
    · rintro ⟨⟨h0, hlt⟩, hw⟩
      refine ⟨h0, hw, hlt, fun x hx => ?_⟩
      have := (hd.mp hw).2.2 x hx
      omega
    · rintro ⟨h0, hw, hlt, _⟩
      exact ⟨⟨h0, hlt⟩, hw⟩

theorem Memory.get_eq_zero_of_notMem {m : Memory} {a : Nat} (h : ∀ c ∈ m, c.1 ≠ a) : m.get a = 0 := by
  induction m with
  | nil => rfl
  | cons c m ih =>
    simp only [List.mem_cons, forall_eq_or_imp] at h
    simp [Memory.get, h.1, ih h.2]

theorem Memory.get_filter_ne (m : Memory) (a x : Nat) :
    Memory.get (m.filter fun c => c.1 != a) x = if x = a then 0 else m.get x := by
  induction m with
  | nil => simp [Memory.get]
  | cons c m ih =>
    by_cases hc : c.1 = a
    · rw [List.filter_cons_of_neg (by simp [hc]), ih]
      by_cases hx : x = a
      · simp [hx]
      · have : c.1 ≠ x := fun h => hx (h ▸ hc)
        simp [hx, Memory.get, this]
    · rw [List.filter_cons_of_pos (by simp [hc])]
      simp only [Memory.get, ih]
      by_cases hx : x = a
      · subst hx; simp [hc]
      · simp [hx]

theorem Memory.get_place {m : Memory} {a : Nat} (h : ∀ c ∈ m, c.1 ≠ a) (v : Word) (x : Nat) :
    (Memory.place a v m).get x = if x = a then v else m.get x := by
  induction m with
  | nil => simp [Memory.place, Memory.get, eq_comm (a := x)]
  | cons c m ih =>
    simp only [List.mem_cons, forall_eq_or_imp] at h
    unfold Memory.place
    split
    · by_cases hx : x = a
      · simp [Memory.get, hx]
      · simp [Memory.get, hx, Ne.symm hx]
    · simp only [Memory.get, ih h.2]
      by_cases hx : x = a
      · subst hx; simp [h.1]
      · simp [hx]

/-- A read after a write: the value written at its address, and at every other address what was there. It holds of
every list, canonical or not. -/
theorem Memory.get_set (m : Memory) (a : Nat) (v : Word) (x : Nat) :
    (m.set a v).get x = if x = a then v else m.get x := by
  unfold Memory.set
  simp only
  split
  · next h => rw [Memory.get_filter_ne, h]
  · rw [Memory.get_place (by simp), Memory.get_filter_ne]
    by_cases hx : x = a <;> simp [hx]

@[simp] theorem State.store_cell (s : State) (a : Nat) (v : Word) (x : Nat) :
    (s.store a v).cell x = if x = a then v else s.cell x := Memory.get_set s.mem a v x

theorem Memory.wf_filter {m : Memory} (h : m.wf = true) (p : Nat × Word → Bool) : Memory.wf (m.filter p) = true := by
  induction m with
  | nil => rfl
  | cons c m ih =>
    obtain ⟨h0, hw, ha⟩ := (Memory.wf_cons c m).mp h
    by_cases hp : p c
    · rw [List.filter_cons_of_pos hp, Memory.wf_cons]
      exact ⟨h0, ih hw, fun d hd => ha d (List.mem_filter.mp hd).1⟩
    · rw [List.filter_cons_of_neg hp]
      exact ih hw

theorem Memory.mem_place (m : Memory) (a : Nat) (v : Word) (c : Nat × Word) :
    c ∈ Memory.place a v m ↔ c = (a, v) ∨ c ∈ m := by
  induction m with
  | nil => simp [Memory.place]
  | cons d m ih =>
    unfold Memory.place
    split
    · simp
    · simp only [List.mem_cons, ih]
      tauto

theorem Memory.wf_place {m : Memory} {a : Nat} {v : Word} (h : m.wf = true) (hv : v ≠ 0) (hn : ∀ c ∈ m, c.1 ≠ a) :
    Memory.wf (Memory.place a v m) = true := by
  induction m with
  | nil => simpa [Memory.place, Memory.wf] using hv
  | cons c m ih =>
    obtain ⟨h0, hw, ha⟩ := (Memory.wf_cons c m).mp h
    simp only [List.mem_cons, forall_eq_or_imp] at hn
    unfold Memory.place
    split
    · next hlt =>
      rw [Memory.wf_cons]
      refine ⟨hv, h, fun d hd => ?_⟩
      rcases List.mem_cons.mp hd with rfl | hd
      · exact hlt
      · have := ha d hd; simp only; omega
    · next hlt =>
      rw [Memory.wf_cons]
      refine ⟨h0, ih hw hn.2, fun d hd => ?_⟩
      rcases (Memory.mem_place m a v d).mp hd with rfl | hd
      · have := hn.1; simp only; omega
      · exact ha d hd

/-- A write keeps the canonical form. -/
theorem Memory.wf_set {m : Memory} (h : m.wf = true) (a : Nat) (v : Word) : (m.set a v).wf = true := by
  unfold Memory.set
  simp only
  split
  · exact Memory.wf_filter h _
  · next hv => exact Memory.wf_place (Memory.wf_filter h _) hv (by simp)

/-- A write lists no address but its own and those listed before. -/
theorem Memory.mem_set {m : Memory} {a : Nat} {v : Word} {c : Nat × Word} (h : c ∈ m.set a v) : c.1 = a ∨ c ∈ m := by
  unfold Memory.set at h
  simp only at h
  split at h
  · exact .inr (List.mem_filter.mp h).1
  · rcases (Memory.mem_place _ a v c).mp h with rfl | h
    · exact .inl rfl
    · exact .inr (List.mem_filter.mp h).1

theorem Memory.load_above (ws : List Word) (a : Nat) : Memory.above a (Memory.load a ws) := by
  induction ws generalizing a with
  | nil => simp [Memory.load, Memory.above]
  | cons w ws ih =>
    unfold Memory.load
    have hr : Memory.above a (Memory.load (a + 1) ws) := fun c hc => by have := ih (a + 1) c hc; omega
    split
    · exact hr
    · intro c hc
      rcases List.mem_cons.mp hc with rfl | hc
      · exact le_refl _
      · exact hr c hc

theorem Memory.load_below (ws : List Word) (a : Nat) : ∀ c ∈ Memory.load a ws, c.1 < a + ws.length := by
  induction ws generalizing a with
  | nil => simp [Memory.load]
  | cons w ws ih =>
    have hr : ∀ c ∈ Memory.load (a + 1) ws, c.1 < a + (w :: ws).length := fun c hc => by
      have := ih (a + 1) c hc
      simp only [List.length_cons]
      omega
    unfold Memory.load
    split
    · exact hr
    · intro c hc
      rcases List.mem_cons.mp hc with rfl | hc
      · simp
      · exact hr c hc

/-- Loading a program gives the canonical form. -/
theorem Memory.wf_load (ws : List Word) (a : Nat) : (Memory.load a ws).wf = true := by
  induction ws generalizing a with
  | nil => rfl
  | cons w ws ih =>
    unfold Memory.load
    split
    · exact ih (a + 1)
    · next hw => exact (Memory.wf_cons _ _).mpr ⟨hw, ih (a + 1), Memory.load_above ws (a + 1)⟩

/-- Loading a program: word `i` at `a + i`, and 0 everywhere else. -/
theorem Memory.get_load (ws : List Word) (a x : Nat) :
    (Memory.load a ws).get x = if x < a then 0 else ws.getD (x - a) 0 := by
  induction ws generalizing a with
  | nil => simp [Memory.load, Memory.get]
  | cons w ws ih =>
    have hget : ∀ v : Word, Memory.get ((a, v) :: Memory.load (a + 1) ws) x =
        if a = x then v else if x < a + 1 then 0 else ws.getD (x - (a + 1)) 0 := fun v => by
      simp [Memory.get, ih]
    have hskip : w = 0 → (Memory.load (a + 1) ws).get x = Memory.get ((a, w) :: Memory.load (a + 1) ws) x := fun h => by
      rw [hget, ih, h]
      by_cases hx : a = x
      · subst hx; simp
      · simp [hx]
    have hload : (Memory.load a (w :: ws)).get x = Memory.get ((a, w) :: Memory.load (a + 1) ws) x := by
      rw [Memory.load]
      split
      · next h => exact hskip h
      · rfl
    rw [hload, hget]
    rcases Nat.lt_trichotomy x a with h | h | h
    · simp [h, Nat.lt_succ_of_lt h, (Nat.ne_of_lt h).symm]
    · simp [h]
    · obtain ⟨d, rfl⟩ : ∃ d, x = a + 1 + d := ⟨x - (a + 1), by omega⟩
      have h1 : ¬ a = a + 1 + d := by omega
      have h2 : ¬ a + 1 + d < a + 1 := by omega
      have h3 : ¬ a + 1 + d < a := by omega
      have h4 : a + 1 + d - a = d + 1 := by omega
      simp [h1, h2, h3, h4]

/-- Reset's memory has the canonical form. -/
theorem State.reset_mem_wf : State.reset.mem.wf = true := rfl

end Sys2Proof.Machine
end

