-- ==== Sys2Proof/Laws/Word.lean ====
section
/-! SUPPORT. A word and its value determine each other. -/

namespace Sys2Proof

/-- The value of the word made for an in-range integer is that integer. -/
theorem Word.toInt_ofInt {v : Int} (h : InWord v) : (Word.ofInt v).toInt = v := by
  obtain ⟨h1, h2⟩ := h
  rw [Word.ofInt, BitVec.toInt_ofInt]
  simp only [wordMin, wordMax] at h1 h2
  exact Int.bmod_eq_of_le (by norm_num; exact h1) (by norm_num; omega)

/-- Every word's value is in range. -/
theorem Word.inWord_toInt (w : Word) : InWord w.toInt := by
  have h1 := BitVec.le_toInt w
  have h2 := BitVec.toInt_lt (x := w)
  norm_num at h1 h2
  exact ⟨h1, by simp only [wordMax]; omega⟩

theorem Word.ofInt_toInt (w : Word) : Word.ofInt w.toInt = w := BitVec.ofInt_toInt

end Sys2Proof
end

