-- ==== Sys2Proof/Laws/Operands.lean ====
section
/-! SUPPORT. What each shared operation can answer, said once. -/

namespace Sys2Proof.Machine

@[simp] theorem bind_ok {ε α β : Type} (a : α) (f : α → Except ε β) : (Except.ok a >>= f) = f a := rfl

@[simp] theorem bind_error {ε α β : Type} (e : ε) (f : α → Except ε β) : (Except.error e >>= f) = Except.error e := rfl

theorem bind_eq_ok {ε α β : Type} {x : Except ε α} {f : α → Except ε β} {b : β} :
    (x >>= f) = Except.ok b ↔ ∃ a, x = Except.ok a ∧ f a = Except.ok b := by
  cases x <;> simp

theorem bind_eq_error {ε α β : Type} {x : Except ε α} {f : α → Except ε β} {e : ε} :
    (x >>= f) = Except.error e ↔ x = Except.error e ∨ ∃ a, x = Except.ok a ∧ f a = Except.error e := by
  cases x <;> simp

@[simp] theorem settle_ok (s t : State) : settle s (.ok t) = .next t := rfl

@[simp] theorem settle_error (s : State) (f : Raised) : settle s (.error f) = .next (s.faultEntry f) := rfl

/-- An instruction ends in the state it computed, or in fault entry from the state it started in. -/
theorem settle_eq_next {s t : State} {r : Except Raised State} :
    settle s r = .next t ↔ r = .ok t ∨ ∃ f, r = .error f ∧ t = s.faultEntry f := by
  cases r <;> simp [eq_comm]

/-- The diagnostic tells two faults apart. -/
theorem State.faultEntry_inj {s : State} {f g : Raised} : s.faultEntry f = s.faultEntry g ↔ f = g := by
  constructor
  · intro h
    have hd := congrArg State.diag h
    simp only [State.faultEntry_diag, Option.some.injEq, Diag.mk.injEq, true_and] at hd
    cases f
    cases g
    exact Raised.mk.injEq _ _ _ _ ▸ hd
  · rintro rfl
    rfl

theorem memRead_of_lt {s : State} {a : Nat} (h : a < s.memSize) : memRead s a = .ok (s.cell a) := by
  simp [memRead, Nat.not_le.mpr h]

theorem memRead_of_le {s : State} {a : Nat} (h : s.memSize ≤ a) : memRead s a = .error ⟨.exhaustedMemory, a⟩ := by
  simp [memRead, h]

theorem memRead_eq_ok {s : State} {a : Nat} {v : Word} : memRead s a = .ok v ↔ a < s.memSize ∧ s.cell a = v := by
  unfold memRead
  split <;> simp <;> omega

theorem memRead_eq_error {s : State} {a : Nat} {f : Raised} :
    memRead s a = .error f ↔ s.memSize ≤ a ∧ f = ⟨.exhaustedMemory, a⟩ := by
  unfold memRead
  split <;> simp_all [eq_comm]

theorem fetchedWord_of_lt {s : State} (h : s.pc < s.memSize) : s.fetchedWord = some (s.cell s.pc) := by
  simp [State.fetchedWord, Nat.not_le.mpr h]

theorem fetchedWord_of_le {s : State} (h : s.memSize ≤ s.pc) : s.fetchedWord = none := by
  simp [State.fetchedWord, h]

/-- The address a candidate resolves to is the candidate, and it exists. -/
theorem effAddr_eq_ok {s : State} {v : Int} {a : Nat} :
    effAddr s v = .ok a ↔ InWord v ∧ v = a ∧ a < s.memSize := by
  unfold effAddr
  split
  · next h => simp [h]
  · next h =>
    split
    · simp; omega
    · split
      · simp; omega
      · simp only [Except.ok.injEq]; omega

/-- A write parameter's address exists. -/
theorem wrAddr_lt {s : State} {k : Nat} {m : Mode} {a : Nat} (h : wrAddr s k m = .ok a) : a < s.memSize := by
  obtain ⟨raw, -, h⟩ := bind_eq_ok.mp h
  cases m with
  | position => exact (effAddr_eq_ok.mp h).2.2
  | immediate => cases h
  | relative => exact (effAddr_eq_ok.mp h).2.2
  | reserved d => cases h

/-- A resolved parameter's raw operand exists. -/
theorem rawOperand_eq_ok {s : State} {k : Nat} {v : Word} :
    rawOperand s k = .ok v ↔ s.pc + k < s.memSize ∧ s.cell (s.pc + k) = v := memRead_eq_ok

theorem rdParam_lt {s : State} {k : Nat} {m : Mode} {v : Word} (h : rdParam s k m = .ok v) : s.pc + k < s.memSize := by
  obtain ⟨raw, hr, -⟩ := bind_eq_ok.mp h
  exact (rawOperand_eq_ok.mp hr).1

theorem wrParam_lt {s : State} {k : Nat} {m : Mode} {a : Nat} (h : wrAddr s k m = .ok a) : s.pc + k < s.memSize := by
  obtain ⟨raw, hr, -⟩ := bind_eq_ok.mp h
  exact (rawOperand_eq_ok.mp hr).1

theorem inRange_of_inWord {v : Int} (h : InWord v) : inRange v = .ok (Word.ofInt v) := if_pos h

theorem inRange_of_not_inWord {v : Int} (h : ¬ InWord v) : inRange v = .error ⟨.arithmeticOverflow, v⟩ := if_neg h

/-- The range check passes exactly the in-range integers, and keeps their value. -/
theorem inRange_eq_ok {v : Int} {r : Word} : inRange v = .ok r ↔ r.toInt = v := by
  unfold inRange
  split
  · next h =>
    simp only [Except.ok.injEq]
    exact ⟨fun e => e ▸ Word.toInt_ofInt h, fun e => by rw [← e, Word.ofInt_toInt]⟩
  · next h => exact ⟨(by intro e; cases e), fun e => absurd (e ▸ Word.inWord_toInt r) h⟩

theorem inRange_eq_error {v : Int} {f : Raised} : inRange v = .error f ↔ ¬ InWord v ∧ f = ⟨.arithmeticOverflow, v⟩ := by
  unfold inRange
  split <;> simp_all [eq_comm]

theorem jumpTarget_eq_ok {b : Word} {a : Nat} : jumpTarget b = .ok a ↔ b.toInt = a := by
  unfold jumpTarget
  split
  · simp; omega
  · simp; omega

theorem jumpTarget_eq_error {b : Word} {f : Raised} :
    jumpTarget b = .error f ↔ b.toInt < 0 ∧ f = ⟨.negativeAddress, b.toInt⟩ := by
  unfold jumpTarget
  split <;> simp_all [eq_comm]

/-- The outcomes of a resolved jump: not taken, or taken to a non-negative target. -/
theorem branch_eq_ok {s t : State} {taken : Bool} {b : Word} :
    branch s taken b = .ok t ↔
      (taken = true ∧ ∃ a : Nat, b.toInt = a ∧ t = s.jump a) ∨ (taken = false ∧ t = s.advance 3) := by
  cases taken
  · simp [branch, eq_comm]
  · simp only [branch, if_true, bind_eq_ok, jumpTarget_eq_ok, Except.ok.injEq]
    simp [eq_comm]

end Sys2Proof.Machine
end

