-- ==== Sys2Proof/Laws/Exec.lean ====
section
/-! SUPPORT. What each instruction can do, one inversion lemma per meaning, and what a step can do. Provers cite these
instead of unfolding a meaning. -/

namespace Sys2Proof.Machine

/-- ADD ends in its store and advance, or in a fault. -/
theorem execAdd_next {ma mb mc : Mode} {s t : State} (h : execAdd ma mb mc s = .next t) :
    (∃ a b c r, rdParam s 1 ma = .ok a ∧ rdParam s 2 mb = .ok b ∧ wrAddr s 3 mc = .ok c ∧
      r.toInt = a.toInt + b.toInt ∧ t = (s.store c r).advance 4) ∨ ∃ f, t = s.faultEntry f := by
  rcases settle_eq_next.mp h with h | ⟨f, -, rfl⟩
  · obtain ⟨a, ha, h⟩ := bind_eq_ok.mp h
    obtain ⟨b, hb, h⟩ := bind_eq_ok.mp h
    obtain ⟨c, hc, h⟩ := bind_eq_ok.mp h
    obtain ⟨r, hr, h⟩ := bind_eq_ok.mp h
    cases h
    exact .inl ⟨a, b, c, r, ha, hb, hc, inRange_eq_ok.mp hr, rfl⟩
  · exact .inr ⟨f, rfl⟩

/-- MUL ends in its store and advance, or in a fault. -/
theorem execMul_next {ma mb mc : Mode} {s t : State} (h : execMul ma mb mc s = .next t) :
    (∃ a b c r, rdParam s 1 ma = .ok a ∧ rdParam s 2 mb = .ok b ∧ wrAddr s 3 mc = .ok c ∧
      r.toInt = a.toInt * b.toInt ∧ t = (s.store c r).advance 4) ∨ ∃ f, t = s.faultEntry f := by
  rcases settle_eq_next.mp h with h | ⟨f, -, rfl⟩
  · obtain ⟨a, ha, h⟩ := bind_eq_ok.mp h
    obtain ⟨b, hb, h⟩ := bind_eq_ok.mp h
    obtain ⟨c, hc, h⟩ := bind_eq_ok.mp h
    obtain ⟨r, hr, h⟩ := bind_eq_ok.mp h
    cases h
    exact .inl ⟨a, b, c, r, ha, hb, hc, inRange_eq_ok.mp hr, rfl⟩
  · exact .inr ⟨f, rfl⟩

/-- IN suspends on an empty queue, stores the front of a non-empty one, or faults. -/
theorem execIn_next {ma : Mode} {s t : State} (h : execIn ma s = .next t) :
    (∃ c, wrAddr s 1 ma = .ok c ∧ s.inq = [] ∧ t = s.suspend) ∨
    (∃ c v rest, wrAddr s 1 ma = .ok c ∧ s.inq = v :: rest ∧ t = ((s.setInq rest).store c v).advance 2) ∨
    ∃ f, t = s.faultEntry f := by
  rcases settle_eq_next.mp h with h | ⟨f, -, rfl⟩
  · obtain ⟨c, hc, h⟩ := bind_eq_ok.mp h
    cases hq : s.inq with
    | nil => rw [hq] at h; cases h; exact .inl ⟨c, hc, rfl, rfl⟩
    | cons v rest => rw [hq] at h; cases h; exact .inr (.inl ⟨c, v, rest, hc, rfl, rfl⟩)
  · exact .inr (.inr ⟨f, rfl⟩)

/-- OUT appends its operand, or faults. -/
theorem execOut_next {ma : Mode} {s t : State} (h : execOut ma s = .next t) :
    (∃ a, rdParam s 1 ma = .ok a ∧ t = (s.pushOut a).advance 2) ∨ ∃ f, t = s.faultEntry f := by
  rcases settle_eq_next.mp h with h | ⟨f, -, rfl⟩
  · obtain ⟨a, ha, h⟩ := bind_eq_ok.mp h
    cases h
    exact .inl ⟨a, ha, rfl⟩
  · exact .inr ⟨f, rfl⟩

/-- JT jumps, advances by 3, or faults. -/
theorem execJt_next {ma mb : Mode} {s t : State} (h : execJt ma mb s = .next t) :
    (∃ a b, rdParam s 1 ma = .ok a ∧ rdParam s 2 mb = .ok b ∧
      ((nonZero a = true ∧ ∃ x : Nat, b.toInt = x ∧ t = s.jump x) ∨ (nonZero a = false ∧ t = s.advance 3))) ∨
    ∃ f, t = s.faultEntry f := by
  rcases settle_eq_next.mp h with h | ⟨f, -, rfl⟩
  · obtain ⟨a, ha, h⟩ := bind_eq_ok.mp h
    obtain ⟨b, hb, h⟩ := bind_eq_ok.mp h
    exact .inl ⟨a, b, ha, hb, branch_eq_ok.mp h⟩
  · exact .inr ⟨f, rfl⟩

/-- JF jumps, advances by 3, or faults. -/
theorem execJf_next {ma mb : Mode} {s t : State} (h : execJf ma mb s = .next t) :
    (∃ a b, rdParam s 1 ma = .ok a ∧ rdParam s 2 mb = .ok b ∧
      ((nonZero a = false ∧ ∃ x : Nat, b.toInt = x ∧ t = s.jump x) ∨ (nonZero a = true ∧ t = s.advance 3))) ∨
    ∃ f, t = s.faultEntry f := by
  rcases settle_eq_next.mp h with h | ⟨f, -, rfl⟩
  · obtain ⟨a, ha, h⟩ := bind_eq_ok.mp h
    obtain ⟨b, hb, h⟩ := bind_eq_ok.mp h
    exact .inl ⟨a, b, ha, hb, by simpa using branch_eq_ok.mp h⟩
  · exact .inr ⟨f, rfl⟩

/-- LT ends in its store and advance, or in a fault. -/
theorem execLt_next {ma mb mc : Mode} {s t : State} (h : execLt ma mb mc s = .next t) :
    (∃ a b c, rdParam s 1 ma = .ok a ∧ rdParam s 2 mb = .ok b ∧ wrAddr s 3 mc = .ok c ∧
      t = (s.store c (truth (lessThan a b))).advance 4) ∨ ∃ f, t = s.faultEntry f := by
  rcases settle_eq_next.mp h with h | ⟨f, -, rfl⟩
  · obtain ⟨a, ha, h⟩ := bind_eq_ok.mp h
    obtain ⟨b, hb, h⟩ := bind_eq_ok.mp h
    obtain ⟨c, hc, h⟩ := bind_eq_ok.mp h
    cases h
    exact .inl ⟨a, b, c, ha, hb, hc, rfl⟩
  · exact .inr ⟨f, rfl⟩

/-- EQ ends in its store and advance, or in a fault. -/
theorem execEq_next {ma mb mc : Mode} {s t : State} (h : execEq ma mb mc s = .next t) :
    (∃ a b c, rdParam s 1 ma = .ok a ∧ rdParam s 2 mb = .ok b ∧ wrAddr s 3 mc = .ok c ∧
      t = (s.store c (truth (equals a b))).advance 4) ∨ ∃ f, t = s.faultEntry f := by
  rcases settle_eq_next.mp h with h | ⟨f, -, rfl⟩
  · obtain ⟨a, ha, h⟩ := bind_eq_ok.mp h
    obtain ⟨b, hb, h⟩ := bind_eq_ok.mp h
    obtain ⟨c, hc, h⟩ := bind_eq_ok.mp h
    cases h
    exact .inl ⟨a, b, c, ha, hb, hc, rfl⟩
  · exact .inr ⟨f, rfl⟩

/-- ARB moves the relative base, or faults. -/
theorem execArb_next {ma : Mode} {s t : State} (h : execArb ma s = .next t) :
    (∃ a r, rdParam s 1 ma = .ok a ∧ r.toInt = s.rb.toInt + a.toInt ∧ t = (s.setRb r).advance 2) ∨
    ∃ f, t = s.faultEntry f := by
  rcases settle_eq_next.mp h with h | ⟨f, -, rfl⟩
  · obtain ⟨a, ha, h⟩ := bind_eq_ok.mp h
    obtain ⟨r, hr, h⟩ := bind_eq_ok.mp h
    cases h
    exact .inl ⟨a, r, ha, inRange_eq_ok.mp hr, rfl⟩
  · exact .inr ⟨f, rfl⟩

/-- HLT halts. -/
theorem execHlt_next {s t : State} (h : execHlt s = .next t) : t = s.halt := by cases h; rfl

/-- Every instruction ends through `settle`: no instruction stops the model. -/
theorem exec_settles (i : Instr) (s : State) : ∃ r, exec i s = settle s r := by
  cases i <;> first | exact ⟨_, rfl⟩ | exact ⟨.ok s.halt, rfl⟩

theorem fetch_eq_ok {s : State} {i : Instr} : fetch s = .ok i ↔ s.pc < s.memSize ∧ decode (s.cell s.pc) = .ok i := by
  unfold fetch
  rw [bind_eq_ok]
  constructor
  · rintro ⟨w, hw, h⟩
    obtain ⟨hlt, rfl⟩ := memRead_eq_ok.mp hw
    refine ⟨hlt, ?_⟩
    cases hd : decode (s.cell s.pc) with
    | ok j => rw [hd] at h; simpa using h
    | error e => rw [hd] at h; cases h
  · rintro ⟨hlt, hd⟩
    exact ⟨_, memRead_of_lt hlt, by rw [hd]⟩

theorem fetch_eq_error {s : State} {f : Raised} :
    fetch s = .error f ↔ (s.memSize ≤ s.pc ∧ f = ⟨.exhaustedMemory, s.pc⟩) ∨
      (s.pc < s.memSize ∧ ∃ e, decode (s.cell s.pc) = .error e ∧ f = unknownWord e) := by
  unfold fetch
  rw [bind_eq_error, memRead_eq_error]
  refine or_congr_right ⟨?_, ?_⟩
  · rintro ⟨w, hw, h⟩
    obtain ⟨hlt, rfl⟩ := memRead_eq_ok.mp hw
    cases hd : decode (s.cell s.pc) with
    | ok j => rw [hd] at h; cases h
    | error e => rw [hd] at h; exact ⟨hlt, e, rfl, by cases h; rfl⟩
  · rintro ⟨hlt, e, hd, rfl⟩
    exact ⟨_, memRead_of_lt hlt, by rw [hd]⟩

/-- A Machine that is not Running is left as it is. -/
theorem step_of_stopped {s : State} (h : s.rs ≠ .running) : step s = .next s := by
  unfold step
  cases hr : s.rs <;> first | rfl | exact absurd hr h

/-- What a step of a Running Machine can be: the instruction fetched, or the fault of the fetch. -/
theorem step_running {s : State} (h : s.rs = .running) :
    (∃ i, fetch s = .ok i ∧ step s = exec i s) ∨ ∃ f, fetch s = .error f ∧ step s = .next (s.faultEntry f) := by
  unfold step
  rw [h]
  cases hf : fetch s with
  | ok i => exact .inl ⟨i, rfl, rfl⟩
  | error f => exact .inr ⟨f, rfl, rfl⟩

end Sys2Proof.Machine
end

