-- ==== Sys2Proof/Laws/HostOps.lean ====
section
/-! SUPPORT. What the host's transactions can do. -/

namespace Sys2Proof.Machine

@[simp] theorem pushInput_eq (v : Word) (s : State) : pushInput v s = s.pushIn v := rfl

/-- Pushing several values appends them in order and changes nothing else (48_host_interface.md R128). -/
theorem pushInputs_eq (vs : List Word) (s : State) : pushInputs vs s = s.setInq (s.inq ++ vs) := by
  induction vs generalizing s with
  | nil => simp [pushInputs, State.setInq]
  | cons v vs ih =>
    have : pushInputs (v :: vs) s = pushInputs vs (s.pushIn v) := rfl
    rw [this, ih]
    simp [State.setInq, State.pushIn]

theorem runLoop_of_stopped {s : State} (h : s.rs ≠ .running) (n : Nat) : runLoop n s = .next s := by
  cases n <;> simp [runLoop, h]

@[simp] theorem runLoop_zero_running {s : State} (h : s.rs = .running) : runLoop 0 s = .fault .runNotEnded := by
  simp [runLoop, h]

/-- The loop takes one step and goes on from there. -/
theorem runLoop_succ_running {s t : State} (h : s.rs = .running) (hs : step s = .next t) (n : Nat) :
    runLoop (n + 1) s = runLoop n t := by
  simp [runLoop, h, hs]

/-- Every step answers a next state. -/
theorem step_next (s : State) : ∃ t, step s = .next t := by
  by_cases h : s.rs = .running
  · rcases step_running h with ⟨i, -, hs⟩ | ⟨f, -, hs⟩
    · obtain ⟨r, hr⟩ := exec_settles i s
      rw [hs, hr]
      cases r <;> exact ⟨_, rfl⟩
    · exact ⟨_, hs⟩
  · exact ⟨s, step_of_stopped h⟩

/-- What `run` does, by the run state it is invoked in (47_execution_loop.md R111). -/
theorem run_eq (n : Nat) (s : State) :
    run n s = if s.rs = .halted ∨ s.rs = .faulted then .next s else runLoop n s.resume := by
  unfold run
  cases h : s.rs <;> simp

/-- A run that returns was over before it began, or took one step more than the rest of it. -/
theorem runLoop_eq_next {n : Nat} {s t : State} (h : runLoop n s = .next t) :
    (s.rs ≠ .running ∧ t = s) ∨ (s.rs = .running ∧ ∃ m u, n = m + 1 ∧ step s = .next u ∧ runLoop m u = .next t) := by
  by_cases hr : s.rs = .running
  · cases n with
    | zero => simp [runLoop, hr] at h
    | succ m =>
      obtain ⟨u, hu⟩ := step_next s
      exact .inr ⟨hr, m, u, rfl, hu, by rwa [runLoop_succ_running hr hu] at h⟩
  · rw [runLoop_of_stopped hr] at h
    cases h
    exact .inl ⟨hr, rfl⟩

/-- What a transaction can do: a `run`, or one queue operation, or nothing. -/
theorem transact_cases {op : Transaction} {s t : State} {r : Reply} (h : transact op s = .next (r, t)) :
    (∃ n, op = .run n ∧ run n s = .next t ∧ r = .ran t.runResult) ∨
    (∃ v, op = .pushInput v ∧ t = s.pushIn v ∧ r = .pushed) ∨
    (op = .popOutput ∧ s.outq = [] ∧ t = s ∧ r = .popped none) ∨
    (∃ v rest, op = .popOutput ∧ s.outq = v :: rest ∧ t = s.setOutq rest ∧ r = .popped (some v)) ∨
    (op = .drainOutput ∧ t = s.setOutq [] ∧ r = .drained s.outq) ∨
    (op = .isHalted ∧ t = s ∧ r = .halted (isHalted s)) := by
  cases op with
  | run n =>
    simp only [transact] at h
    cases hr : run n s with
    | next u => rw [hr] at h; cases h; exact .inl ⟨n, rfl, hr, rfl⟩
    | fault f => rw [hr] at h; cases h
    | refused f => rw [hr] at h; cases h
  | pushInput v => cases h; exact .inr (.inl ⟨v, rfl, rfl, rfl⟩)
  | popOutput =>
    cases hq : s.outq with
    | nil => simp [transact, popOutput, hq] at h; simp [h]
    | cons v rest => simp [transact, popOutput, hq] at h; simp [h]
  | drainOutput => cases h; simp [drainOutput]
  | isHalted => cases h; simp

end Sys2Proof.Machine
end

