-- ==== Sys2Proof/Laws/PerInstr.lean ====
section
/-! SUPPORT. Facts about instructions as syntax, one lemma per constructor. -/

namespace Sys2Proof

theorem Mode.digit_lt_of_wf {m : Mode} (h : m.wf = true) : m.digit < 10 := by
  cases m <;> simp_all [Mode.wf, Mode.digit]
  omega

/-- The mode a well-formed mode's digit stands for is that mode. -/
theorem modeOfDigit_digit {m : Mode} (h : m.wf = true) : modeOfDigit m.digit = m := by
  cases m with
  | position => rfl
  | immediate => rfl
  | relative => rfl
  | reserved d =>
    simp only [Mode.wf, Bool.and_eq_true, decide_eq_true_eq] at h
    obtain ⟨h3, h9⟩ := h
    interval_cases d <;> rfl

/-- The canonical word is a five-digit numeral whose low two digits are the opcode (30_encoding.md R51, R63). -/
def Laws.CanonicalWord.Statement (i : Instr) : Prop :=
  i.wf = true → i.opcode + 100 * i.modeDigit 1 + 1000 * i.modeDigit 2 + 10000 * i.modeDigit 3 < 100000 ∧
    i.opcode < 100 ∧ 1 ≤ i.length ∧ i.length ≤ 4

theorem Laws.CanonicalWord.add (a b c : Mode) : Statement (.add a b c) := by
  intro h
  simp only [Instr.wf, Instr.params, List.all_cons, List.all_nil, Bool.and_true, Bool.and_eq_true] at h
  have ha := Mode.digit_lt_of_wf h.1
  have hb := Mode.digit_lt_of_wf h.2.1
  have hc := Mode.digit_lt_of_wf h.2.2
  simp [Instr.modeDigit, Instr.params, Instr.opcode, Instr.length]
  omega

theorem Laws.CanonicalWord.mul (a b c : Mode) : Statement (.mul a b c) := by
  intro h
  have := Laws.CanonicalWord.add a b c h
  simp [Instr.modeDigit, Instr.params, Instr.opcode, Instr.length] at this ⊢
  omega

theorem Laws.CanonicalWord.inp (a : Mode) : Statement (.inp a) := by
  intro h
  simp only [Instr.wf, Instr.params, List.all_cons, List.all_nil, Bool.and_true] at h
  have ha := Mode.digit_lt_of_wf h
  simp [Instr.modeDigit, Instr.params, Instr.opcode, Instr.length]
  omega

theorem Laws.CanonicalWord.out (a : Mode) : Statement (.out a) := by
  intro h
  have := Laws.CanonicalWord.inp a h
  simp [Instr.modeDigit, Instr.params, Instr.opcode, Instr.length] at this ⊢
  omega

theorem Laws.CanonicalWord.jt (a b : Mode) : Statement (.jt a b) := by
  intro h
  simp only [Instr.wf, Instr.params, List.all_cons, List.all_nil, Bool.and_true, Bool.and_eq_true] at h
  have ha := Mode.digit_lt_of_wf h.1
  have hb := Mode.digit_lt_of_wf h.2
  simp [Instr.modeDigit, Instr.params, Instr.opcode, Instr.length]
  omega

theorem Laws.CanonicalWord.jf (a b : Mode) : Statement (.jf a b) := by
  intro h
  have := Laws.CanonicalWord.jt a b h
  simp [Instr.modeDigit, Instr.params, Instr.opcode, Instr.length] at this ⊢
  omega

theorem Laws.CanonicalWord.lt (a b c : Mode) : Statement (.lt a b c) := by
  intro h
  have := Laws.CanonicalWord.add a b c h
  simp [Instr.modeDigit, Instr.params, Instr.opcode, Instr.length] at this ⊢
  omega

theorem Laws.CanonicalWord.eq (a b c : Mode) : Statement (.eq a b c) := by
  intro h
  have := Laws.CanonicalWord.add a b c h
  simp [Instr.modeDigit, Instr.params, Instr.opcode, Instr.length] at this ⊢
  omega

theorem Laws.CanonicalWord.arb (a : Mode) : Statement (.arb a) := by
  intro h
  have := Laws.CanonicalWord.inp a h
  simp [Instr.modeDigit, Instr.params, Instr.opcode, Instr.length] at this ⊢
  omega

theorem Laws.CanonicalWord.hlt : Statement .hlt := by
  intro _
  simp [Instr.modeDigit, Instr.params, Instr.opcode, Instr.length]

end Sys2Proof
end

