-- ==== Sys2Proof/Tests/Slice0.lean ====
section
/-! SUPPORT. Tests. Expected results are the vectors of 95_test_vectors.md (their ids stand at each test) or are worked
out by hand from the rule named. The last part shows, for each statement with hypotheses, a case that meets them. -/

namespace Sys2Proof.Tests

open Sys2Proof.Machine Sys2Proof.Safety

/-- A Machine with the program laid out from 0 and `n` words of memory, as `construct` leaves it. -/
def boot (p : List Int) (n : Nat) : State :=
  { State.reset with mem := Memory.load 0 (p.map Word.ofInt), memSize := n }

/-- The next state of a step, if there is one. -/
def after (s : State) : Option State :=
  match step s with
  | .next t => some t
  | _ => none

/-- The value of a cell. -/
def val (a : Nat) (s : State) : Int := (s.cell a).toInt

/-! ### Well-formedness: an ill-formed term for each check -/

theorem test_wf_reserved_below_3 : Instr.wf (.out (.reserved 2)) = false := by decide
theorem test_wf_reserved_above_9 : Instr.wf (.out (.reserved 10)) = false := by decide
theorem test_wf_second_and_third_parameter :
    Instr.wf (.add .position (.reserved 0) .position) = false ∧ Instr.wf (.lt .position .position (.reserved 99)) = false := by
  decide
theorem test_wf_bounds : Instr.wf (.jt (.reserved 3) (.reserved 9)) = true := by decide
theorem test_accepted_refuses_immediate_write : Instr.accepted (.inp .immediate) = false := by decide
theorem test_accepted_refuses_reserved : Instr.accepted (.out (.reserved 3)) = false := by decide

/-! ### Decoding: one word per constructor and the corner words (95 section 2.1) -/

theorem test_decode_add : decode 21101 = .ok (.add .immediate .immediate .relative) := by decide -- V-DEC3
theorem test_decode_mul : decode 1002 = .ok (.mul .position .immediate .position) := by decide -- V-DEC1
theorem test_decode_in : decode 203 = .ok (.inp .relative) := by decide -- V-IN7
theorem test_decode_out : decode 204 = .ok (.out .relative) := by decide -- V-DEC4
theorem test_decode_jt : decode 1105 = .ok (.jt .immediate .immediate) := by decide -- V-DEC5
theorem test_decode_jf : decode 1006 = .ok (.jf .position .immediate) := by decide -- V-S4
theorem test_decode_lt : decode 22107 = .ok (.lt .immediate .relative .relative) := by decide -- P2
theorem test_decode_eq : decode 1008 = .ok (.eq .position .immediate .position) := by decide -- V-S4
theorem test_decode_arb : decode 109 = .ok (.arb .immediate) := by decide -- V-ARB1
theorem test_decode_hlt : decode 99 = .ok .hlt := by decide -- V-DEC6
theorem test_decode_ignores_high_digit : decode 100001 = decode 1 := by decide -- V-DEC8
theorem test_decode_ignores_absent_modes : decode 1104 = decode 104 ∧ decode 20099 = decode 99 := by decide -- V-DEC9, 10
theorem test_decode_negative : decode (Word.ofInt (-1)) = .error (.negativeWord (-1)) := by decide -- V-DEC14
theorem test_decode_zero : decode 0 = .error (.unknownOpcode 0) := by decide -- V-DEC12
theorem test_encode_add : (encode (.add .immediate .immediate .relative)).toInt = 21101 := by decide -- V-DEC3
theorem test_encode_jf : (encode (.jf .position .immediate)).toInt = 1006 := by decide -- V-S4
theorem test_assemble_out : assemble (.out .relative) [Word.ofInt (-1)] = [204, Word.ofInt (-1)] := by decide -- V-S4

/-! ### The instructions (95 sections 2.2 to 2.8) -/

theorem test_add_negative : (after (boot [1101, -5, 2, 0] 4)).map (fun t => (val 0 t, t.pc)) = some (-3, 4) := by decide -- V-ADD1
theorem test_add_overflow : (after (boot [1101, 9223372036854775807, 1, 0] 4)).map (fun t => (t.rs, t.diag, t.pc, val 0 t)) =
    some (.faulted, some ⟨.arithmeticOverflow, 0, some 1101, some 9223372036854775808⟩, 0, 1101) := by decide -- V-ADD3
theorem test_mul_in_range : (after (boot [1102, 4294967296, -2147483648, 0] 4)).map (val 0) = some wordMin := by decide -- V-MUL8
theorem test_mul_overflow : (after (boot [1102, 3037000500, 3037000500, 0] 4)).map (fun t => t.diag) =
    some (some ⟨.arithmeticOverflow, 0, some 1102, some 9223372037000250000⟩) := by decide -- V-MUL10
theorem test_in_pops : (after { boot [3, 0, 4, 0, 99] 5 with inq := [123, 7] }).map (fun t => (val 0 t, t.inq, t.pc)) =
    some (123, [7], 2) := by decide -- V-IN1
theorem test_in_faults_before_suspending : (after (boot [103, 0] 2)).map (fun t => (t.rs, t.diag)) =
    some (.faulted, some ⟨.immediateWriteTarget, 0, some 103, some 1⟩) := by decide -- V-IN5
theorem test_out_appends : (after { boot [204, 1] 2 with outq := [9] }).map (fun t => (t.outq, t.pc)) = some ([9, 1], 2) := by
  decide -- V-RES3
theorem test_out_overflowing_address :
    (after { boot [109, 9223372036854775807, 204, 1] 4 with pc := 2, rb := Word.ofInt 9223372036854775807 }).map (fun t => t.diag) =
    some (some ⟨.arithmeticOverflow, 2, some 204, some 9223372036854775808⟩) := by decide -- V-RES6
theorem test_jt_beyond_memory : (after (boot [1105, -1, 7] 3)).map (fun t => (t.pc, t.rs)) = some (7, .running) := by decide -- V-JT3
theorem test_jt_resolves_target_when_not_taken : (after (boot [5, 3, 9, 0] 4)).map (fun t => t.diag) =
    some (some ⟨.exhaustedMemory, 0, some 5, some 9⟩) := by decide -- V-JT7
theorem test_jf_taken : (after (boot [6, 2, 0] 3)).map (fun t => t.pc) = some 6 := by decide -- V-JF3
theorem test_jf_not_taken : (after (boot [1106, 5, 4] 3)).map (fun t => t.pc) = some 3 := by decide -- V-JF2
theorem test_lt_signed : (after (boot [1107, 9223372036854775807, -9223372036854775808, 0] 4)).map (val 0) = some 0 := by
  decide -- V-LT4
theorem test_lt_less : (after (boot [1107, -5, 3, 0] 4)).map (val 0) = some 1 := by decide -- V-LT1
theorem test_eq_overwrites_itself : (after (boot [8, 0, 0, 0] 4)).map (val 0) = some 1 := by decide -- V-EQ3
theorem test_eq_differs : (after (boot [1108, 0, 1, 0] 4)).map (val 0) = some 0 := by decide -- V-EQ2
theorem test_arb_reads_at_old_base : (after { boot [109, 2, 209, 2, 7] 5 with pc := 2, rb := 2 }).map (fun t => (t.rb, t.pc)) =
    some (9, 4) := by decide -- V-ARB5
theorem test_arb_overflow :
    (after { boot [109, 1] 2 with rb := Word.ofInt 9223372036854775807 }).map (fun t => (t.rs, t.rb.toInt)) =
    some (.faulted, 9223372036854775807) := by decide -- V-ARB6
theorem test_hlt : (after (boot [20099] 1)).map (fun t => (t.rs, t.pc)) = some (.halted, 0) := by decide -- V-HLT3
theorem test_unknown_opcode : (after { boot [4, 0, 0, 0, 77] 5 with pc := 4 }).map (fun t => (t.rs, t.diag, t.pc)) =
    some (.faulted, some ⟨.unknownOpcode, 4, some 77, some 77⟩, 4) := by decide -- V-S6
theorem test_fetch_beyond_memory : (after (boot [] 0)).map (fun t => t.diag) =
    some (some ⟨.exhaustedMemory, 0, none, some 0⟩) := by decide -- V-UNK6
theorem test_lowest_faulty_parameter_wins : (after (boot [11001, -1, 0, 0] 4)).map (fun t => t.diag) =
    some (some ⟨.negativeAddress, 0, some 11001, some (-1)⟩) := by decide -- V-RES12
theorem test_missing_operand_word : (after (boot [1, 0, 0] 3)).map (fun t => t.diag) =
    some (some ⟨.exhaustedMemory, 0, some 1, some 3⟩) := by decide -- V-RES10
theorem test_reserved_mode : (after (boot [301, 0, 0, 0] 4)).map (fun t => t.diag) =
    some (some ⟨.invalidMode, 0, some 301, some 13⟩) := by decide -- V-RES11

/-- Writing 0 takes a cell out of the list, so that equal memories are equal data (20_memory.md R33). -/
theorem test_memory_canonical : Memory.set [(1, 5), (3, 6)] 1 0 = [(3, 6)] ∧ Memory.set [(1, 5), (3, 6)] 2 7 = [(1, 5), (2, 7), (3, 6)] := by
  decide

theorem test_memory_wf_refuses : Memory.wf [(2, 1), (1, 1)] = false ∧ Memory.wf [(1, 0)] = false := by decide

/-- The words of an instruction stored where the next step fetches are run by it (log 4). -/
theorem test_withFetchWord : (after (State.reset.withFetchWord 256 (104 + 7 * 2 ^ 64))).map (fun t => (t.outq, t.pc)) =
    some ([7], 2) := by decide

theorem test_decodeTableWord : decodeTableWord 8 4 = some (.out .position) ∧ decodeTableWord 16 1002 = some (.mul .position .immediate .position) := by
  decide

/-- V-OUT3, the host's side of the outbound queue. -/
theorem test_pop_output : popOutput { State.reset with outq := [1, 2] } = (some 1, { State.reset with outq := [2] }) := by decide

/-! ### Cases that meet the hypotheses of the statements -/

/-- A read parameter of each mode at the ends of its range: the last cell, and the immediate word itself. -/
theorem witness_reads_position : Reads (boot [4, 3, 0, 8] 4) 1 .position 8 := .position 3 (by decide) (by decide) (by decide)
theorem witness_reads_immediate : Reads (boot [104, -7] 2) 1 .immediate (Word.ofInt (-7)) := .immediate (by decide)
theorem witness_reads_relative : Reads { boot [204, -1] 2 with rb := 1 } 1 .relative 204 :=
  .relative 0 (by decide) (by decide) (by decide) (by decide)

theorem witness_designates_position : Designates (boot [3, 3, 0, 8] 4) 1 .position 3 :=
  .position 3 (by decide) (by decide) (by decide)
theorem witness_designates_relative : Designates { boot [203, -2, 0, 0] 4 with rb := 5 } 1 .relative 3 :=
  .relative 3 (by decide) (by decide) (by decide) (by decide)

theorem witness_read_faults :
    ReadFaults (boot [4] 1) 1 .position .exhaustedMemory 1 ∧ ReadFaults (boot [4, 2] 2) 1 .position .exhaustedMemory 2 ∧
    ReadFaults (boot [4, -1] 2) 1 .position .negativeAddress (-1) ∧
    ReadFaults { boot [204, 1] 2 with rb := Word.ofInt wordMax } 1 .relative .arithmeticOverflow 9223372036854775808 ∧
    ReadFaults (boot [304, 0] 2) 1 (.reserved 3) .invalidMode 13 :=
  ⟨.noWord _ (by decide), .position _ _ (by decide) (.exhausted _ (by decide) (by decide)),
    .position _ _ (by decide) (.negative _ (by decide) (by decide)), .relative _ _ (by decide) (.overflow _ (by decide)),
    .reserved 3 (by decide)⟩

theorem witness_write_faults :
    WriteFaults (boot [103, 0] 2) 1 .immediate .immediateWriteTarget 1 ∧
    WriteFaults (boot [3, 2] 2) 1 .position .exhaustedMemory 2 ∧ WriteFaults (boot [903, 2] 2) 1 (.reserved 9) .invalidMode 19 :=
  ⟨.immediate (by decide), .position _ _ (by decide) (.exhausted _ (by decide) (by decide)), .reserved 9 (by decide)⟩

theorem witness_EffAddrChecksInOrder :
    (¬ InWord 9223372036854775808 ∧ ¬ InWord (-9223372036854775809)) ∧ (InWord (-1) ∧ (-1 : Int) < 0) ∧
    (InWord 5 ∧ (0 : Int) ≤ 5 ∧ ((boot [] 5).memSize : Int) ≤ 5) ∧ (InWord 4 ∧ (4 : Int) = (4 : Nat) ∧ 4 < (boot [] 5).memSize) := by
  decide

theorem witness_DecodeOfEncode : Instr.wf (.add (.reserved 9) (.reserved 3) .immediate) = true := by decide
theorem witness_CanonicalWordOfDecoded : decode 120004 = .ok (.out .position) := by decide
theorem witness_UnusedDigitsAreIgnored :
    decode 104 = .ok (.out .immediate) ∧ 0 ≤ (1104 : Word).toInt ∧ (1104 : Word).toInt % (100 * 10 ^ 1) = (104 : Word).toInt % (100 * 10 ^ 1) := by
  decide

theorem witness_AcceptedModesDecideModeFaults :
    (∃ t, exec (.out .position) (boot [4, 2] 2) = .next t ∧ Instr.accepted (.out .position) = true ∧
      (boot [4, 2] 2).diag = none ∧ t.diag.isSome = true) ∧
    ∃ t, exec (.inp .immediate) (boot [103, 0] 2) = .next t ∧ Instr.accepted (.inp .immediate) = false ∧
      (boot [103, 0] 2).pc < (boot [103, 0] 2).memSize :=
  ⟨⟨_, rfl, rfl, rfl, rfl⟩, ⟨_, rfl, rfl, by decide⟩⟩

/-- A word for each of the ten opcodes, with digits above the opcode. -/
theorem witness_selected_words :
    ([21101, 1002, 203, 104, 1105, 1006, 107, 1108, 9, 199] : List Word).map (fun w => (decide (0 ≤ w.toInt), w.toInt % 100)) =
      opcodes.map fun n => (true, n) := by
  decide

/-- A first fault at the first parameter, for every instruction that reads its first parameter. -/
theorem firstFault_reserved (i : Instr) (rest : List (Role × Mode)) (hi : i.params = (.read, .reserved 3) :: rest)
    (s : State) (h : s.pc + 1 < s.memSize) : FirstFault i s .invalidMode 13 :=
  ⟨0, (.read, .reserved 3), by rw [hi]; rfl, fun _ _ hj => absurd hj (Nat.not_lt_zero _), ReadFaults.reserved 3 h⟩

theorem witness_faults_in_order :
    FirstFault (.mul (.reserved 3) .position .position) (boot [302, 0, 0, 0] 4) .invalidMode 13 ∧
    FirstFault (.out (.reserved 3)) (boot [304, 0] 2) .invalidMode 13 ∧
    FirstFault (.jt (.reserved 3) .position) (boot [305, 0, 0] 3) .invalidMode 13 ∧
    FirstFault (.jf (.reserved 3) .position) (boot [306, 0, 0] 3) .invalidMode 13 ∧
    FirstFault (.lt (.reserved 3) .position .position) (boot [307, 0, 0, 0] 4) .invalidMode 13 ∧
    FirstFault (.eq (.reserved 3) .position .position) (boot [308, 0, 0, 0] 4) .invalidMode 13 ∧
    FirstFault (.arb (.reserved 3)) (boot [309, 0] 2) .invalidMode 13 :=
  ⟨firstFault_reserved _ _ rfl _ (by decide), firstFault_reserved _ _ rfl _ (by decide), firstFault_reserved _ _ rfl _ (by decide),
    firstFault_reserved _ _ rfl _ (by decide), firstFault_reserved _ _ rfl _ (by decide), firstFault_reserved _ _ rfl _ (by decide),
    firstFault_reserved _ _ rfl _ (by decide)⟩

/-- A first fault at the third parameter, the first two resolved (V-ADD7), and IN's (V-IN4). -/
theorem witness_faults_in_order_write :
    FirstFault (.add .immediate .immediate .immediate) (boot [11101, 1, 1, 0] 4) .immediateWriteTarget 3 ∧
    FirstFault (.inp .immediate) (boot [103, 0] 2) .immediateWriteTarget 1 :=
  ⟨⟨2, (.write, .immediate), rfl, fun j' p' hj hp => by
      obtain rfl | rfl : j' = 0 ∨ j' = 1 := by omega
      · cases hp; exact ⟨_, .immediate (by decide)⟩
      · cases hp; exact ⟨_, .immediate (by decide)⟩,
    WriteFaults.immediate (by decide)⟩,
   ⟨0, (.write, .immediate), rfl, fun _ _ hj => absurd hj (Nat.not_lt_zero _), WriteFaults.immediate (by decide)⟩⟩

/-- ADD at the largest sum that is a word, and one above it. -/
theorem witness_AddStoresExactSum : ∀ b ∈ ([1, 2] : List Int),
    Reads (boot [1101, 9223372036854775806, b, 0] 4) 1 .immediate (Word.ofInt 9223372036854775806) ∧
    Reads (boot [1101, 9223372036854775806, b, 0] 4) 2 .immediate (Word.ofInt b) ∧
    Designates (boot [1101, 9223372036854775806, b, 0] 4) 3 .position 0 ∧
    (InWord ((Word.ofInt 9223372036854775806).toInt + (Word.ofInt b).toInt) ↔ b = 1) := by
  intro b hb
  rcases List.mem_pair.mp hb with rfl | rfl
  · exact ⟨.immediate (by decide), .immediate (by decide), .position 0 (by decide) (by decide) (by decide), by decide⟩
  · exact ⟨.immediate (by decide), .immediate (by decide), .position 0 (by decide) (by decide) (by decide), by decide⟩

/-- MUL at `WORD_MIN * 1` and `WORD_MIN * (-1)` (V-MUL5, V-MUL6). -/
theorem witness_MulStoresExactProduct : ∀ b ∈ ([1, -1] : List Int),
    Reads (boot [1102, -9223372036854775808, b, 0] 4) 1 .immediate (Word.ofInt wordMin) ∧
    Reads (boot [1102, -9223372036854775808, b, 0] 4) 2 .immediate (Word.ofInt b) ∧
    Designates (boot [1102, -9223372036854775808, b, 0] 4) 3 .position 0 ∧
    (InWord ((Word.ofInt wordMin).toInt * (Word.ofInt b).toInt) ↔ b = 1) := by
  intro b hb
  rcases List.mem_pair.mp hb with rfl | rfl
  · exact ⟨.immediate (by decide), .immediate (by decide), .position 0 (by decide) (by decide) (by decide), by decide⟩
  · exact ⟨.immediate (by decide), .immediate (by decide), .position 0 (by decide) (by decide) (by decide), by decide⟩

theorem witness_InStoresFrontOrSuspends :
    (Designates { boot [3, 1] 2 with inq := [5] } 1 .position 1 ∧ { boot [3, 1] 2 with inq := [5] }.inq = 5 :: []) ∧
    Designates (boot [3, 1] 2) 1 .position 1 ∧ (boot [3, 1] 2).inq = [] :=
  ⟨⟨.position 1 (by decide) (by decide) (by decide), rfl⟩, .position 1 (by decide) (by decide) (by decide), rfl⟩

/-- JT and JF: conditions -1, 1 and 0, targets 0 (taken to the first word) and -2 (negative). -/
theorem witness_jump_branches : ∀ a ∈ ([-1, 1, 0] : List Int), ∀ b ∈ ([0, -2] : List Int),
    Reads (boot [1105, a, b] 3) 1 .immediate (Word.ofInt a) ∧ Reads (boot [1105, a, b] 3) 2 .immediate (Word.ofInt b) ∧
    ((Word.ofInt a).toInt ≠ 0 ↔ a ≠ 0) ∧ ((Word.ofInt b).toInt < 0 ↔ b = -2) ∧ (b = 0 → (Word.ofInt b).toInt = (0 : Nat)) := by
  intro a ha b hb
  simp only [List.mem_cons, List.not_mem_nil, or_false] at ha hb
  rcases ha with rfl | rfl | rfl <;> rcases hb with rfl | rfl <;>
    exact ⟨.immediate (by decide), .immediate (by decide), by decide, by decide, by decide⟩

theorem witness_JumpBeyondMemoryFaultsAtFetch :
    (boot [1105, 1, 3] 3).rs = .running ∧ (boot [1105, 1, 3] 3).pc < (boot [1105, 1, 3] 3).memSize ∧
    decode ((boot [1105, 1, 3] 3).cell 0) = .ok (.jt .immediate .immediate) ∧
    Reads (boot [1105, 1, 3] 3) 1 .immediate 1 ∧ Reads (boot [1105, 1, 3] 3) 2 .immediate 3 ∧
    (1 : Word).toInt ≠ 0 ∧ (3 : Word).toInt = (3 : Nat) ∧ (boot [1105, 1, 3] 3).memSize ≤ 3 :=
  ⟨rfl, by decide, by decide, .immediate (by decide), .immediate (by decide), by decide, by decide, by decide⟩

/-- LT and EQ: equal values and the two extremes, in both orders. -/
theorem witness_comparisons : ∀ a ∈ ([wordMin, wordMax, 3] : List Int), ∀ b ∈ ([wordMin, wordMax, 3] : List Int),
    Reads (boot [1107, a, b, 3] 4) 1 .immediate (Word.ofInt a) ∧ Reads (boot [1107, a, b, 3] 4) 2 .immediate (Word.ofInt b) ∧
    Designates (boot [1107, a, b, 3] 4) 3 .position 3 := by
  intro a ha b hb
  simp only [List.mem_cons, List.not_mem_nil, or_false] at ha hb
  rcases ha with rfl | rfl | rfl <;> rcases hb with rfl | rfl | rfl <;>
    exact ⟨.immediate (by decide), .immediate (by decide), .position 3 (by decide) (by decide) (by decide)⟩

theorem witness_AdjustRelativeBaseAdds : ∀ a ∈ ([-1, -2] : List Int),
    Reads { boot [109, a] 2 with rb := Word.ofInt (wordMin + 1) } 1 .immediate (Word.ofInt a) ∧
    (InWord ((Word.ofInt (wordMin + 1)).toInt + (Word.ofInt a).toInt) ↔ a = -1) := by
  intro a ha
  rcases List.mem_pair.mp ha with rfl | rfl
  · exact ⟨.immediate (by decide), by decide⟩
  · exact ⟨.immediate (by decide), by decide⟩

theorem witness_StepRunsDecodedInstr :
    (boot [109, 5] 2).rs = .running ∧ (boot [109, 5] 2).pc < (boot [109, 5] 2).memSize ∧
    decode ((boot [109, 5] 2).cell (boot [109, 5] 2).pc) = .ok (.arb .immediate) := by decide

theorem witness_UnknownWordsFault : ∀ w ∈ ([0, 10, 98, 1077] : List Int),
    (boot [w] 1).pc < (boot [w] 1).memSize ∧ 0 ≤ val 0 (boot [w] 1) ∧ val 0 (boot [w] 1) % 100 ∉ opcodes := by decide

theorem witness_UnknownWordsFault_negative : val 0 (boot [-1] 1) < 0 ∧ val 0 (boot [-9223372036854775808] 1) < 0 := by decide

/-- Each of the five ways a step faults (60_exceptions.md R153). -/
theorem witness_StepFaultsByOrderedChecks :
    StepFaults (boot [] 0) .exhaustedMemory 0 ∧ StepFaults (boot [-1] 1) .unknownOpcode (-1) ∧
    StepFaults (boot [1077] 1) .unknownOpcode 77 ∧ StepFaults (boot [304, 0] 2) .invalidMode 13 ∧
    StepFaults (boot [1105, 1, -2] 3) .negativeAddress (-2) :=
  ⟨.fetch (by decide), .negativeWord (by decide) (by decide), .unknownOpcode (by decide) (by decide) (by decide),
    .parameter (.out (.reserved 3)) _ _ (by decide) (by decide) (firstFault_reserved _ [] rfl _ (by decide)),
    .operation (.jt .immediate .immediate) _ _ (by decide) (by decide)
      (.jt .immediate .immediate (Word.ofInt 1) (Word.ofInt (-2)) (.immediate (by decide)) (.immediate (by decide)) (by decide) (by decide))⟩

/-- An IN that waits and a HLT. -/
theorem witness_AtEmptyIn : AtEmptyIn (boot [3, 0] 2) :=
  ⟨by decide, rfl, .position, 0, by decide, .position 0 (by decide) (by decide) (by decide)⟩
theorem witness_AtHalt : AtHalt (boot [199] 1) := ⟨by decide, by decide⟩

/-- The four outcomes of a step occur. -/
theorem witness_RunStateTransitionTable_step :
    [boot [109, 5] 2, boot [3, 0] 2, boot [99] 1, boot [0] 1].map (fun s => (s.rs, (after s).map fun t => t.rs)) =
      [(.running, some .running), (.running, some .suspended), (.running, some .halted), (.running, some .faulted)] := by decide

/-- A suspended, a halted and a faulted Machine, and transactions on each. -/
theorem witness_RunStateTransitionTable_host : ∀ r ∈ ([.suspended, .halted, .faulted] : List RunState),
    ∃ y t, transact (.pushInput 5) { boot [3, 0] 2 with rs := r } = .next (y, t) := fun _ _ => ⟨_, _, rfl⟩

/-- A run that faults at its second step (V-S6). -/
theorem witness_FaultsArePrecise : ∃ t, (boot [2, 0, 0, 0, 77] 5).rs = .running ∧ run 2 (boot [2, 0, 0, 0, 77] 5) = .next t ∧
    t.rs = .faulted := ⟨_, rfl, rfl, rfl⟩

/-- A Running Machine at a HLT. -/
theorem witness_HaltStops : (boot [199] 1).rs = .running ∧ (boot [199] 1).pc < (boot [199] 1).memSize ∧
    decode ((boot [199] 1).cell (boot [199] 1).pc) = .ok .hlt := by decide

theorem witness_OnlyEmptyInSuspends : ∃ t, (boot [3, 0] 2).rs = .running ∧ step (boot [3, 0] 2) = .next t ∧ t.rs = .suspended :=
  ⟨_, rfl, rfl, rfl⟩

/-- Steps that write `pc`, the relative base, each queue and a cell, and the three other run states. -/
theorem witness_StateIsWrittenOnlyByItsWriters :
    (∃ t, step (boot [109, 5] 2) = .next t ∧ t.rb ≠ (boot [109, 5] 2).rb) ∧
    (∃ t, step { boot [3, 0] 2 with inq := [5] } = .next t ∧ t.inq ≠ [5] ∧ t.cell 0 ≠ (boot [3, 0] 2).cell 0) ∧
    (∃ t, step (boot [104, 5] 2) = .next t ∧ t.outq ≠ (boot [104, 5] 2).outq ∧ t.pc ≠ (boot [104, 5] 2).pc) ∧
    (∃ t, step (boot [3, 0] 2) = .next t ∧ t.rs = .suspended) ∧ (∃ t, step (boot [199] 1) = .next t ∧ t.rs = .halted) ∧
    (∃ t, step (boot [0] 1) = .next t ∧ t.rs = .faulted ∧ t.diag ≠ (boot [0] 1).diag) :=
  ⟨⟨_, rfl, by decide⟩, ⟨_, rfl, by decide, by decide⟩, ⟨_, rfl, by decide, by decide⟩, ⟨_, rfl, rfl⟩, ⟨_, rfl, rfl⟩,
    ⟨_, rfl, rfl, by decide⟩⟩

theorem witness_runs : (∃ t, run 2 { boot [3, 0, 99] 3 with inq := [5, 6] } = .next t ∧ t.rs = .halted ∧ t.inq = [6]) ∧
    run 0 { boot [99] 1 with rs := .halted } = .next { boot [99] 1 with rs := .halted } := ⟨⟨_, rfl, rfl, rfl⟩, rfl⟩

/-- Next states of a storing instruction: stored, with a designated address, and faulted, with none. -/
theorem witness_StoringInstrFrame :
    (∃ t, exec (.add .immediate .immediate .position) (boot [1101, 2, 3, 0] 4) = .next t ∧
      wrAddr (boot [1101, 2, 3, 0] 4) 3 .position = .ok 0) ∧
    ∃ t f, exec (.add .immediate .immediate .position) (boot [1101, 2, 3, 4] 4) = .next t ∧
      wrAddr (boot [1101, 2, 3, 4] 4) 3 .position = .error f := ⟨⟨_, rfl, rfl⟩, ⟨_, _, rfl, rfl⟩⟩

theorem witness_InFrame :
    (∃ t, exec (.inp .position) { boot [3, 1] 2 with inq := [5] } = .next t ∧ wrAddr (boot [3, 1] 2) 1 .position = .ok 1) ∧
    ∃ t f, exec (.inp .position) (boot [3, 2] 2) = .next t ∧ wrAddr (boot [3, 2] 2) 1 .position = .error f :=
  ⟨⟨_, rfl, rfl⟩, ⟨_, _, rfl, rfl⟩⟩

theorem witness_NonStoringInstrFrame : ∀ i ∈ ([.out .immediate, .jt .immediate .immediate, .jf .immediate .immediate, .arb .immediate, .hlt] : List Instr),
    ∃ t, exec i (boot [104, 1, 2] 3) = .next t ∧ t.rs ≠ .faulted := by
  simp only [List.mem_cons, List.not_mem_nil, or_false]
  rintro i (rfl | rfl | rfl | rfl | rfl)
  · exact ⟨_, rfl, by decide⟩
  · exact ⟨_, rfl, by decide⟩
  · exact ⟨_, rfl, by decide⟩
  · exact ⟨_, rfl, by decide⟩
  · exact ⟨_, rfl, by decide⟩

/-- The precondition at its bounds: a program that fills its memory, and the largest memory. -/
theorem witness_ConstructionGivesResetValues : ∀ p ∈ ([{ program := [3, 0], memSize := 2 },
    { program := [], memSize := 9223372036854775808, inbound := [1], startPtr := 7 }] : List Config.Params),
    p.program.length ≤ p.memSize ∧ p.memSize ≤ 2 ^ 63 := by decide

/-- A constructed memory with a last program word and a first zero cell. -/
theorem witness_ConstructedMemoryIsZeroFilled : ∃ t, construct { program := [3, 7], memSize := 3 } = .next t ∧
    ([3, 7] : List Word)[1]? = some 7 ∧ ([3, 7] : List Word).length ≤ 2 ∧ 2 < 3 := ⟨_, if_pos (by decide), rfl, by decide, by decide⟩

theorem witness_ConstructionOutsidePreconditionIsRefused :
    ({ program := [3, 0], memSize := 1 } : Config.Params).memSize < [3, 0].length ∧ 2 ^ 63 < 9223372036854775809 := by decide

theorem witness_InvHoldsAtConstruction : ∃ t, construct { program := [3, 0], memSize := 2, inbound := [4] } = .next t := ⟨_, if_pos (by decide)⟩

/-- A faulted Machine that meets the invariant, with a diagnostic to describe. -/
theorem witness_Inv : Inv { boot [77] 1 with rs := .faulted, diag := some ⟨.unknownOpcode, 0, some 77, some 77⟩ } where
  memWf := by decide
  memBound := by decide
  sizeBound := by decide
  diagIff := by decide
  diagPrecise := by
    intro d hd
    cases hd
    decide

/-- A Running Machine that meets the invariant and steps. -/
theorem witness_InvKeptByEveryStep : Inv (boot [109, 5] 2) ∧ ∃ t, step (boot [109, 5] 2) = .next t :=
  ⟨⟨by decide, by decide, by decide, by decide, by intro d hd; cases hd⟩, _, rfl⟩

/-- Each transaction, on one Machine that meets the invariant. -/
theorem witness_InvKeptByEveryTransaction : Inv { boot [99] 1 with outq := [7, 8] } ∧
    ∀ op ∈ ([.run 3, .pushInput 5, .popOutput, .drainOutput, .isHalted] : List Transaction),
      ∃ r t, transact op { boot [99] 1 with outq := [7, 8] } = .next (r, t) := by
  refine ⟨⟨by decide, by decide, by decide, by decide, by intro d hd; cases hd⟩, ?_⟩
  simp only [List.mem_cons, List.not_mem_nil, or_false]
  rintro op (rfl | rfl | rfl | rfl | rfl) <;> exact ⟨_, _, rfl⟩

theorem witness_PcBoundKeptByEveryStep :
    PcBounded { boot [99] 9223372036854775808 with pc := 9223372036854775808 } ∧ PcBounded (boot [99] 1) :=
  ⟨⟨by decide, by decide⟩, by decide, by decide⟩

/-- A Machine suspended at its IN, without and with input. -/
theorem witness_RunResumesAtTheSuspendedIn :
    { boot [3, 0] 2 with rs := .suspended }.rs = .suspended ∧ (boot [3, 0] 2).pc < (boot [3, 0] 2).memSize ∧
    decode ((boot [3, 0] 2).cell 0) = .ok (.inp .position) ∧
    Designates { boot [3, 0] 2 with rs := .suspended, inq := [4] } 1 .position 0 ∧
    Designates { boot [3, 0] 2 with rs := .suspended } 1 .position 0 :=
  ⟨rfl, by decide, by decide, .position 0 (by decide) (by decide) (by decide), .position 0 (by decide) (by decide) (by decide)⟩

/-- V-S5 as a session: suspend, push 123, run to the halt, with nothing taken. -/
theorem witness_SuspendResumeIsTransparent : ∃ t, (boot [3, 0, 4, 0, 99] 5).rs = .running ∧
    Session (boot [3, 0, 4, 0, 99] 5) [123] [] t ∧ t.outq = [123] ∧ t.rs = .halted :=
  ⟨_, rfl, .resume _ _ _ [123] [] [] [] [] ⟨1, rfl⟩ rfl rfl (.last _ _ ⟨3, rfl⟩), by decide, by decide⟩

/-- The same program with both inputs of a later session in the queue: the one run returns, and the session is suspended. -/
theorem witness_SuspendResumeIsTransparent_back : ∃ u t, (boot [3, 0, 3, 0, 99] 5).rs = .running ∧
    RunsTo (pushInputs ([1] ++ [2] ++ [3]) (boot [3, 0, 3, 0, 99] 5)) u ∧ Session (boot [3, 0, 3, 0, 99] 5) [1] [] t ∧
    t.rs = .suspended ∧ t.outq = [] ++ [] :=
  ⟨_, _, rfl, ⟨3, rfl⟩, .resume _ _ _ [1] [] [] [] [] ⟨1, rfl⟩ rfl rfl (.last _ _ ⟨2, rfl⟩), rfl, rfl⟩

theorem witness_RunOnTerminalDoesNothing : ({ boot [99] 1 with rs := .halted } : State).rs = .halted ∧
    ({ boot [0] 1 with rs := .faulted } : State).rs = .faulted := ⟨rfl, rfl⟩

theorem witness_RunIsIteratedStep : ∃ t, (boot [109, 5, 99] 3).rs = .running ∧ run 2 (boot [109, 5, 99] 3) = .next t ∧ t.rs = .halted :=
  ⟨_, rfl, rfl, rfl⟩

theorem witness_DrainIsRepeatedPop : ({ State.reset with outq := [1, 2] } : State).outq.length ≤ 2 := by decide

theorem witness_MachinesAreIndependent : ∃ r ms', fleetTransact 1 (.pushInput 5) [boot [99] 1, boot [3, 0] 2] = .next (r, ms') := ⟨_, _, rfl⟩

theorem witness_ForwardMovesOneValue :
    (0 : Nat) ≠ 1 ∧ [{ boot [99] 1 with outq := [8] }, boot [3, 0] 2][0]? = some { boot [99] 1 with outq := [8] } ∧
    [{ boot [99] 1 with outq := [8] }, boot [3, 0] 2][1]? = some (boot [3, 0] 2) := ⟨by decide, rfl, rfl⟩

end Sys2Proof.Tests
end

/-! SUPPORT. The proofs about memory at construction (20_memory.md). -/

namespace Sys2Proof.Machine

/-- What a construction that gives a Machine has done: its precondition holds, and the Machine is reset's, but for the
four construction arguments (48_host_interface.md R126, 10_state.md R22). -/
theorem construct_eq_next {p : Config.Params} {t : State} :
    construct p = .next t ↔ p.Ok ∧ t = { State.reset with
      mem := Memory.load 0 p.program, pc := p.startPtr, inq := p.inbound, memSize := p.memSize } := by
  unfold construct
  split
  · next hok => exact ⟨fun h => ⟨hok, by cases h; rfl⟩, fun ⟨_, ht⟩ => ht ▸ rfl⟩
  · next hok => exact ⟨nofun, fun ⟨h, _⟩ => absurd h hok⟩

/-- Cell `x` of a constructed Machine: program word `x`, and 0 past the program's end. -/
theorem cell_of_construct {p : Config.Params} {t : State} (h : construct p = .next t) (x : Nat) :
    t.cell x = p.program.getD x 0 := by
  obtain ⟨-, rfl⟩ := construct_eq_next.mp h
  exact Memory.get_load p.program 0 x

/-- A construction gives the memory size it was asked for, and the program fits in it. -/
theorem memSize_of_construct {p : Config.Params} {t : State} (h : construct p = .next t) :
    t.memSize = p.memSize ∧ p.program.length ≤ t.memSize := by
  obtain ⟨⟨hfits, -⟩, rfl⟩ := construct_eq_next.mp h
  exact ⟨rfl, hfits⟩

/-- Settles O31: every cell is the program's word there or 0, and the program fits in memory, so each address the
statement names is one that `memRead` answers. -/
theorem constructedMemoryIsZeroFilled : Obligations.ConstructedMemoryIsZeroFilled := by
  intro p t h
  obtain ⟨hsize, hfits⟩ := memSize_of_construct h
  constructor
  · intro i w hw
    obtain ⟨hi, -⟩ := List.getElem?_eq_some_iff.mp hw
    have hcell : t.cell i = w := by simp [cell_of_construct h, hw]
    exact memRead_eq_ok.mpr ⟨by omega, hcell⟩
  · intro i hlen hi
    have hcell : t.cell i = 0 := by simp [cell_of_construct h, hlen]
    exact memRead_eq_ok.mpr ⟨by omega, hcell⟩

end Sys2Proof.Machine

/-! SUPPORT. The proofs about the execution loop (47_execution_loop.md): where a Machine suspends, and that runs cut by
suspensions are one run (R116, R118). -/

namespace Sys2Proof.Machine

open Sys2Proof.Safety

/-! ### The suspension point -/

/-- An instruction of a Running Machine that suspends it is an IN, finds the queue empty, and changes nothing else. -/
theorem exec_suspends {i : Instr} {s t : State} (hr : s.rs = .running) (h : exec i s = .next t)
    (ht : t.rs = .suspended) : t = s.suspend ∧ s.inq = [] ∧ ∃ m, i = .inp m := by
  cases i with
  | add a b c => obtain ⟨_, _, _, _, -, -, -, -, rfl⟩ | ⟨f, rfl⟩ := execAdd_next h <;> simp [hr] at ht
  | mul a b c => obtain ⟨_, _, _, _, -, -, -, -, rfl⟩ | ⟨f, rfl⟩ := execMul_next h <;> simp [hr] at ht
  | inp m =>
    obtain ⟨_, -, hq, rfl⟩ | ⟨_, _, _, -, -, rfl⟩ | ⟨f, rfl⟩ := execIn_next h
    · exact ⟨rfl, hq, m, rfl⟩
    · simp [hr] at ht
    · simp at ht
  | out a => obtain ⟨_, -, rfl⟩ | ⟨f, rfl⟩ := execOut_next h <;> simp [hr] at ht
  | jt a b => obtain ⟨_, _, -, -, ⟨-, _, -, rfl⟩ | ⟨-, rfl⟩⟩ | ⟨f, rfl⟩ := execJt_next h <;> simp [hr] at ht
  | jf a b => obtain ⟨_, _, -, -, ⟨-, _, -, rfl⟩ | ⟨-, rfl⟩⟩ | ⟨f, rfl⟩ := execJf_next h <;> simp [hr] at ht
  | lt a b c => obtain ⟨_, _, _, -, -, -, rfl⟩ | ⟨f, rfl⟩ := execLt_next h <;> simp [hr] at ht
  | eq a b c => obtain ⟨_, _, _, -, -, -, rfl⟩ | ⟨f, rfl⟩ := execEq_next h <;> simp [hr] at ht
  | arb a => obtain ⟨_, _, -, -, rfl⟩ | ⟨f, rfl⟩ := execArb_next h <;> simp [hr] at ht
  | hlt => simp [execHlt_next h] at ht

/-- A step that suspends a Running Machine is an IN on an empty queue, and changes nothing but the run state. -/
theorem step_suspends {s t : State} (hr : s.rs = .running) (h : step s = .next t) (ht : t.rs = .suspended) :
    t = s.suspend ∧ s.inq = [] ∧ ∃ m, decode (s.cell s.pc) = .ok (.inp m) := by
  obtain ⟨i, hf, hs⟩ | ⟨f, -, hs⟩ := step_running hr
  · obtain ⟨he, hq, m, rfl⟩ := exec_suspends hr (hs ▸ h) ht
    exact ⟨he, hq, m, (fetch_eq_ok.mp hf).2⟩
  · cases hs.symm.trans h
    cases ht

/-- Settles O24: `step_suspends`, without what such a step leaves. -/
theorem onlyEmptyInSuspends : Obligations.OnlyEmptyInSuspends := fun _ _ hr h ht => (step_suspends hr h ht).2

/-! ### A Machine with more in its queues -/

/-- `s` with `taken` before its outbound queue and `more` after its inbound queue: the Machine of R118 from which no
output was taken and to which all input was given. -/
def State.extend (s : State) (taken more : List Word) : State :=
  { s with outq := taken ++ s.outq, inq := s.inq ++ more }

@[simp] theorem State.extend_rs (s : State) (taken more : List Word) : (s.extend taken more).rs = s.rs := rfl
@[simp] theorem State.extend_inq (s : State) (taken more : List Word) : (s.extend taken more).inq = s.inq ++ more := rfl

theorem State.extend_resume (s : State) (taken more : List Word) :
    (s.extend taken more).resume = s.resume.extend taken more := rfl

theorem State.extend_extend (s : State) (taken taken' more more' : List Word) :
    (s.extend taken more).extend taken' more' = s.extend (taken' ++ taken) (more ++ more') := by
  simp [State.extend]

theorem State.extend_nil_right (s : State) (taken : List Word) :
    s.extend taken [] = { s with outq := taken ++ s.outq } := by
  simp [State.extend]

theorem pushInputs_eq_extend (vs : List Word) (s : State) : pushInputs vs s = s.extend [] vs := pushInputs_eq vs s

/-- Giving back the output taken from a Machine. -/
theorem State.extend_setOutq {s : State} {now rest : List Word} (h : s.outq = now ++ rest) (more : List Word) :
    (s.setOutq rest).extend now more = s.extend [] more := by
  simp [State.extend, State.setOutq, h]

theorem State.extend_pushOut (s : State) (taken more : List Word) (v : Word) :
    (s.extend taken more).pushOut v = (s.pushOut v).extend taken more := by
  simp [State.extend, State.pushOut]

/-! ### A step of it -/

section
variable {s t : State} {taken more : List Word}

/-- Where the computed state is extended, so is what the instruction ends in, fault entry included. -/
theorem settle_extend {r : Except Raised State} (h : settle s r = .next t) :
    settle (s.extend taken more) ((State.extend · taken more) <$> r) = .next (t.extend taken more) := by
  obtain rfl | ⟨f, rfl, rfl⟩ := settle_eq_next.mp h <;> rfl

theorem branch_extend (jumps : Bool) (b : Word) :
    branch (s.extend taken more) jumps b = (State.extend · taken more) <$> branch s jumps b := by
  cases jumps with
  | false => rfl
  | true => simp only [branch, if_true, map_bind]; rfl

/-- An instruction but IN does the same with more in the queues. -/
theorem exec_extend {i : Instr} (hi : ∀ m, i ≠ .inp m) (h : exec i s = .next t) :
    exec i (s.extend taken more) = .next (t.extend taken more) := by
  cases i with
  | inp m => exact absurd rfl (hi m)
  | jt a b | jf a b =>
    rw [← settle_extend h]
    simp only [map_bind, ← branch_extend]
    rfl
  | out a =>
    rw [← settle_extend h, map_bind]
    change settle _ (rdParam s 1 a >>= fun v => .ok (((s.extend taken more).pushOut v).advance 2)) = _
    simp only [State.extend_pushOut]
    rfl
  | hlt => cases execHlt_next h; rfl
  | add a b c | mul a b c | lt a b c | eq a b c | arb a =>
    rw [← settle_extend h]
    simp only [map_bind]
    rfl

/-- IN does the same with more in the queues, unless it suspended and there is input now. -/
theorem execIn_extend {m : Mode} (h : execIn m s = .next t) (hmore : t.rs = .suspended → more = []) :
    execIn m (s.extend taken more) = .next (t.extend taken more) := by
  have haddr : wrAddr (s.extend taken more) 1 m = wrAddr s 1 m := rfl
  unfold execIn at h ⊢
  rw [haddr]
  cases hc : wrAddr s 1 m with
  | error f => rw [hc] at h; cases h; rfl
  | ok c =>
    rw [hc, bind_ok] at h
    rw [bind_ok, State.extend_inq]
    cases hq : s.inq with
    | nil =>
      rw [hq] at h
      cases h
      rw [hmore rfl]
      rfl
    | cons v rest =>
      rw [hq] at h
      cases h
      rfl

theorem step_of_fetch_ok {i : Instr} (hr : s.rs = .running) (hf : fetch s = .ok i) : step s = exec i s := by
  simp [step, hr, hf]

theorem step_of_fetch_error {f : Raised} (hr : s.rs = .running) (hf : fetch s = .error f) :
    step s = .next (s.faultEntry f) := by
  simp [step, hr, hf]

/-- A step is the same with more in the queues, unless it suspended and there is input now. -/
theorem step_extend (hr : s.rs = .running) (h : step s = .next t) (hmore : t.rs = .suspended → more = []) :
    step (s.extend taken more) = .next (t.extend taken more) := by
  have hfetch : fetch (s.extend taken more) = fetch s := rfl
  have hre : (s.extend taken more).rs = .running := hr
  cases hf : fetch s with
  | ok i =>
    rw [step_of_fetch_ok hre (hfetch.trans hf)]
    rw [step_of_fetch_ok hr hf] at h
    by_cases hi : ∃ m, i = .inp m
    · obtain ⟨m, rfl⟩ := hi
      exact execIn_extend h hmore
    · exact exec_extend (fun m hm => hi ⟨m, hm⟩) h
  | error f =>
    rw [step_of_fetch_error hre (hfetch.trans hf)]
    rw [step_of_fetch_error hr hf] at h
    cases h
    rfl

/-! ### The loop of it -/

/-- Induction along a loop that ends in `t`: `P` holds where it is over, and passes from the state after a step to the
state before it. -/
theorem runLoop_induction {P : Nat → State → Prop} (stopped : t.rs ≠ .running → ∀ n, P n t)
    (stepped : ∀ n s u, s.rs = .running → step s = .next u → runLoop n u = .next t → P n u → P (n + 1) s)
    {n : Nat} (h : runLoop n s = .next t) : P n s := by
  induction n generalizing s with
  | zero =>
    obtain ⟨hr, rfl⟩ | ⟨-, _, _, hn, -, -⟩ := runLoop_eq_next h
    · exact stopped hr 0
    · cases hn
  | succ n ih =>
    obtain ⟨hr, rfl⟩ | ⟨hr, _, u, hn, hs, hu⟩ := runLoop_eq_next h
    · exact stopped hr (n + 1)
    · cases hn
      exact stepped n s u hr hs hu (ih hu)

/-- More steps allowed do not change where the loop ends. -/
theorem runLoop_add {n : Nat} (h : runLoop n s = .next t) (k : Nat) : runLoop (n + k) s = .next t := by
  refine runLoop_induction (P := fun n s => runLoop (n + k) s = .next t) ?stopped ?stepped h
  case stopped => exact fun hr _ => runLoop_of_stopped hr _
  case stepped =>
    intro n s u hr hs _ ih
    rw [Nat.add_right_comm, runLoop_succ_running hr hs]
    exact ih

/-- The loop ends in one state, however many steps it is allowed. -/
theorem runLoop_unique {n n' : Nat} {t' : State} (h : runLoop n s = .next t) (h' : runLoop n' s = .next t') :
    t' = t := by
  have := runLoop_add h n'
  rw [Nat.add_comm, runLoop_add h' n] at this
  cases this
  rfl

theorem runLoop_extend_of_stopped (hr : s.rs ≠ .running) (n : Nat) :
    runLoop n (s.extend taken more) = .next (s.extend taken more) :=
  runLoop_of_stopped (State.extend_rs s taken more ▸ hr) n

theorem runLoop_extend_succ (hr : s.rs = .running) (h : step s = .next t) (hmore : t.rs = .suspended → more = [])
    (n : Nat) : runLoop (n + 1) (s.extend taken more) = runLoop n (t.extend taken more) :=
  runLoop_succ_running (State.extend_rs s taken more ▸ hr) (step_extend hr h hmore) n

/-- A loop that comes to a Suspended Machine is over. -/
theorem eq_of_runLoop_suspended {n : Nat} (hs : s.rs = .suspended) (h : runLoop n s = .next t) : t = s := by
  rw [runLoop_of_stopped (by simp [hs])] at h
  cases h
  rfl

/-- The loop ends in the same way with more in the queues, unless it suspended and there is input now. -/
theorem runLoop_extend {n : Nat} (h : runLoop n s = .next t) (hmore : t.rs = .suspended → more = []) :
    runLoop n (s.extend taken more) = .next (t.extend taken more) := by
  refine runLoop_induction (P := fun n s => runLoop n (s.extend taken more) = .next (t.extend taken more))
    ?stopped ?stepped h
  case stopped => exact fun hr n => runLoop_extend_of_stopped hr n
  case stepped =>
    intro n s u hr hs hu ih
    rw [runLoop_extend_succ hr hs fun hsus => hmore (eq_of_runLoop_suspended hsus hu ▸ hsus)]
    exact ih

/-- Where the loop ends with more in the queues, it ends without: there, or at an IN that misses its input. -/
theorem runLoop_of_extend {n : Nat} {u : State} (h : runLoop n (s.extend taken more) = .next u) :
    ∃ t, runLoop n s = .next t := by
  induction n generalizing s with
  | zero =>
    obtain ⟨hr, -⟩ | ⟨-, _, _, hn, -, -⟩ := runLoop_eq_next h
    · exact ⟨s, runLoop_of_stopped (s.extend_rs taken more ▸ hr) _⟩
    · cases hn
  | succ n ih =>
    by_cases hr : s.rs = .running
    · obtain ⟨w, hs⟩ := step_next s
      rw [runLoop_succ_running hr hs]
      by_cases hsus : w.rs = .suspended
      · exact ⟨w, runLoop_of_stopped (by simp [hsus]) _⟩
      · rw [runLoop_extend_succ hr hs fun hw => absurd hw hsus] at h
        exact ih h
    · exact ⟨s, runLoop_of_stopped hr _⟩

/-- Where the loop suspends, with more in the queues it comes to the same IN and goes on from there. -/
theorem runLoop_extend_suspended {n : Nat} (hs : s.rs ≠ .suspended) (h : runLoop n s = .next t)
    (ht : t.rs = .suspended) (taken more : List Word) :
    ∃ k, ∀ m, runLoop (k + m) (s.extend taken more) = runLoop m (t.resume.extend taken more) := by
  refine runLoop_induction (P := fun _ s => s.rs ≠ .suspended →
    ∃ k, ∀ m, runLoop (k + m) (s.extend taken more) = runLoop m (t.resume.extend taken more)) ?stopped ?stepped h hs
  case stopped => exact fun _ _ hs => absurd ht hs
  case stepped =>
    intro n s u hr hstep hu ih _
    by_cases hsus : u.rs = .suspended
    · cases eq_of_runLoop_suspended hsus hu
      obtain ⟨rfl, -, -⟩ := step_suspends hr hstep ht
      have hback : s.suspend.resume = s := by cases s; cases hr; rfl
      exact ⟨0, fun m => by rw [hback, Nat.zero_add]⟩
    · obtain ⟨k, hk⟩ := ih hsus
      refine ⟨k + 1, fun m => ?_⟩
      rw [Nat.add_right_comm, runLoop_extend_succ hr hstep fun h => absurd h hsus]
      exact hk m

end

/-! ### Runs and sessions -/

/-- The state in which `run` enters its loop (47_execution_loop.md R111): Running, unless the Machine is Halted or
Faulted. -/
def State.entry (s : State) : State := if s.rs = .halted ∨ s.rs = .faulted then s else s.resume

theorem State.entry_rs_ne_suspended (s : State) : s.entry.rs ≠ .suspended := by
  unfold State.entry
  split
  · next h => rcases h with h | h <;> simp [h]
  · simp

theorem State.entry_of_suspended {s : State} (h : s.rs = .suspended) : s.entry = s.resume := by simp [State.entry, h]

theorem State.entry_extend (s : State) (taken more : List Word) :
    (s.extend taken more).entry = s.entry.extend taken more := by
  by_cases h : s.rs = .halted ∨ s.rs = .faulted <;> simp [State.entry, h, State.extend_resume]

section
variable {s t u : State} {taken more : List Word}

/-- A `run` is its loop from the entry state. -/
theorem runsTo_iff_runLoop : RunsTo s t ↔ ∃ n, runLoop n s.entry = .next t := by
  refine exists_congr fun n => ?_
  rw [run_eq, State.entry]
  split
  · next h => rw [runLoop_of_stopped (by rcases h with h | h <;> simp [h])]
  · rfl

theorem runsTo_extend_iff_runLoop :
    RunsTo (s.extend taken more) t ↔ ∃ n, runLoop n (s.entry.extend taken more) = .next t := by
  rw [runsTo_iff_runLoop, State.entry_extend]

/-- A `run` returns in one state. -/
theorem runsTo_unique (ht : RunsTo s t) (hu : RunsTo s u) : u = t := by
  obtain ⟨n, hn⟩ := runsTo_iff_runLoop.mp ht
  obtain ⟨m, hm⟩ := runsTo_iff_runLoop.mp hu
  exact runLoop_unique hn hm

/-- Output left in the queue changes nothing else about a run. -/
theorem runsTo_extend_taken (h : RunsTo s t) (taken : List Word) : RunsTo (s.extend taken []) (t.extend taken []) := by
  obtain ⟨n, hn⟩ := runsTo_iff_runLoop.mp h
  exact runsTo_extend_iff_runLoop.mpr ⟨n, runLoop_extend hn fun _ => rfl⟩

/-- A Machine that returns with more in the queues returns without. -/
theorem runsTo_of_extend (h : RunsTo (s.extend taken more) u) : ∃ t, RunsTo s t := by
  obtain ⟨n, hn⟩ := runsTo_extend_iff_runLoop.mp h
  obtain ⟨t, ht⟩ := runLoop_of_extend hn
  exact ⟨t, runsTo_iff_runLoop.mpr ⟨n, ht⟩⟩

/-- Input pushed after a run has suspended might as well have been there when it began: the resumed run ends where the
run with all of it ends. -/
theorem runsTo_extend_iff_of_suspended (h : RunsTo s t) (ht : t.rs = .suspended) :
    RunsTo (s.extend taken more) u ↔ RunsTo (t.extend taken more) u := by
  obtain ⟨n, hn⟩ := runsTo_iff_runLoop.mp h
  obtain ⟨k, hk⟩ := runLoop_extend_suspended s.entry_rs_ne_suspended hn ht taken more
  rw [runsTo_extend_iff_runLoop, runsTo_extend_iff_runLoop, State.entry_of_suspended ht]
  constructor
  · rintro ⟨m, hm⟩
    exact ⟨m, by rw [← hk, Nat.add_comm]; exact runLoop_add hm k⟩
  · rintro ⟨m, hm⟩
    exact ⟨k + m, by rw [hk]; exact hm⟩

/-- A session is one run with all its input, in which the output taken was left. -/
theorem runsTo_of_session {pushed : List Word} (h : Session s pushed taken t) :
    RunsTo (s.extend [] pushed) (t.extend taken []) := by
  induction h with
  | last s t h => exact runsTo_extend_taken h []
  | resume s v t batch now rest pushed taken hv hsus hout _ ih =>
    rw [pushInputs_eq_extend] at ih
    have hrest := runsTo_extend_taken ih now
    rw [runsTo_extend_iff_of_suspended hv hsus]
    simpa [State.extend_extend, State.extend_setOutq hout] using hrest

/-- After a session has suspended, pushing a first part of the input still to come and taking some of the output, the
Machine returns again where the run with all the input returns. -/
theorem runsTo_after_session {pushed batch later now rest : List Word} (h : Session s pushed taken t)
    (ht : t.rs = .suspended) (hout : t.outq = now ++ rest)
    (hall : RunsTo (s.extend [] (pushed ++ batch ++ later)) u) :
    ∃ t', RunsTo ((t.setOutq rest).extend [] batch) t' := by
  have hpast : RunsTo ((t.extend taken []).extend [] (batch ++ later)) u := by
    rw [← runsTo_extend_iff_of_suspended (runsTo_of_session h) ht]
    simpa [State.extend_extend] using hall
  have hmore : ((t.setOutq rest).extend [] batch).extend (taken ++ now) later =
      (t.extend taken []).extend [] (batch ++ later) := by
    simp [State.extend, State.setOutq, hout]
  exact runsTo_of_extend (hmore ▸ hpast)

end

/-- Settles O43: a session is one run with all its input (`runsTo_of_session`), and where that run returns, every run of a
session does (`runsTo_of_extend` for the first, `runsTo_after_session` for the later ones). That the Machine is Running
or Suspended is not needed. -/
theorem suspendResumeIsTransparent : Obligations.SuspendResumeIsTransparent := by
  intro s _
  simp only [pushInputs_eq_extend]
  constructor
  · intro t pushed taken h
    have hrun := runsTo_of_session h
    exact ⟨_, hrun, t.extend_nil_right taken, fun _ hu => runsTo_unique hrun hu⟩
  · rintro all u hall
    refine ⟨runsTo_of_extend hall, ?_⟩
    rintro t pushed taken batch later now rest h ht rfl hout
    exact runsTo_after_session h ht hout hall

end Sys2Proof.Machine

/-! SUPPORT. The proofs about faults (60_exceptions.md): fault entry is the one way into Faulted, and it is the last step
of the run (R155, R156). -/

namespace Sys2Proof.Machine

/-! ### Entry into Faulted -/

/-- An instruction of a Running Machine that leaves it Faulted ended in fault entry from the state it started in: each
way it can complete leaves the Machine Running, Suspended or Halted. -/
theorem exec_faults {i : Instr} {s t : State} (hr : s.rs = .running) (h : exec i s = .next t)
    (ht : t.rs = .faulted) : ∃ f, t = s.faultEntry f := by
  cases i with
  | add a b c => obtain ⟨_, _, _, _, -, -, -, -, rfl⟩ | hf := execAdd_next h; exacts [by simp [hr] at ht, hf]
  | mul a b c => obtain ⟨_, _, _, _, -, -, -, -, rfl⟩ | hf := execMul_next h; exacts [by simp [hr] at ht, hf]
  | inp m =>
    obtain ⟨_, -, -, rfl⟩ | ⟨_, _, _, -, -, rfl⟩ | hf := execIn_next h
    exacts [by simp at ht, by simp [hr] at ht, hf]
  | out a => obtain ⟨_, -, rfl⟩ | hf := execOut_next h; exacts [by simp [hr] at ht, hf]
  | jt a b =>
    obtain ⟨_, _, -, -, ⟨-, _, -, rfl⟩ | ⟨-, rfl⟩⟩ | hf := execJt_next h
    exacts [by simp [hr] at ht, by simp [hr] at ht, hf]
  | jf a b =>
    obtain ⟨_, _, -, -, ⟨-, _, -, rfl⟩ | ⟨-, rfl⟩⟩ | hf := execJf_next h
    exacts [by simp [hr] at ht, by simp [hr] at ht, hf]
  | lt a b c => obtain ⟨_, _, _, -, -, -, rfl⟩ | hf := execLt_next h; exacts [by simp [hr] at ht, hf]
  | eq a b c => obtain ⟨_, _, _, -, -, -, rfl⟩ | hf := execEq_next h; exacts [by simp [hr] at ht, hf]
  | arb a => obtain ⟨_, _, -, -, rfl⟩ | hf := execArb_next h; exacts [by simp [hr] at ht, hf]
  | hlt => simp [execHlt_next h] at ht

/-- A step of a Running Machine that leaves it Faulted is fault entry from the state it started in. -/
theorem step_faults {s t : State} (hr : s.rs = .running) (h : step s = .next t) (ht : t.rs = .faulted) :
    ∃ f, t = s.faultEntry f := by
  obtain ⟨i, -, hs⟩ | ⟨f, -, hs⟩ := step_running hr
  · exact exec_faults hr (hs ▸ h) ht
  · cases hs.symm.trans h
    exact ⟨f, rfl⟩

/-! ### The steps before it -/

/-- The core's run of one step more, from where its first step comes to. -/
theorem core_run_succ {s u : State} (h : step s = .next u) (k : Nat) : core.run (k + 1) s = core.run k u := by
  have hcore : core.step s = .next u := h
  simp [Host.Core.run, hcore]

/-- A loop entered by a Running Machine ends with a step, and comes to that step's Running Machine by whole steps. -/
theorem runLoop_last_step {n : Nat} {s t : State} (h : runLoop n s = .next t) (hr : s.rs = .running) :
    ∃ k u, core.run k s = .next u ∧ u.rs = .running ∧ step u = .next t := by
  refine runLoop_induction (P := fun _ s => s.rs = .running →
    ∃ k u, core.run k s = .next u ∧ u.rs = .running ∧ step u = .next t) ?stopped ?stepped h hr
  case stopped => exact fun hstop _ hrun => absurd hrun hstop
  case stepped =>
    intro n s u hrun hs hu ih _
    by_cases hur : u.rs = .running
    · obtain ⟨k, v, hv, hvr, hlast⟩ := ih hur
      exact ⟨k + 1, v, (core_run_succ hs k).trans hv, hvr, hlast⟩
    · rw [runLoop_of_stopped hur] at hu
      cases hu
      exact ⟨0, s, rfl, hrun, hs⟩

/-- Settles O25: the run's last step is taken from a Running Machine after whole steps (`runLoop_last_step`), and as it
leaves the Machine Faulted it is fault entry (`step_faults`), which writes the run state and the diagnostic alone. -/
theorem faultsArePrecise : Obligations.FaultsArePrecise := by
  intro n s t hr h ht
  have hloop : runLoop n s.resume = .next t := by simpa [run_eq, hr] using h
  have hentry : s.resume = s := by cases s; cases hr; rfl
  obtain ⟨k, u, hk, hur, hlast⟩ := runLoop_last_step (hentry ▸ hloop) hr
  obtain ⟨f, rfl⟩ := step_faults hur hlast ht
  exact ⟨k, u, hk, hur, hlast, rfl, rfl, rfl, rfl, rfl, rfl⟩

end Sys2Proof.Machine

/-! SUPPORT. The proofs about encoding (30_encoding.md): what `decode` answers, in both directions, and the canonical
word. -/

namespace Sys2Proof

open Sys2Proof.Safety

/-! ### Modes and digits -/

theorem digit_modeOfDigit (d : Nat) : (modeOfDigit d).digit = d := by
  unfold modeOfDigit
  split <;> rfl

theorem modeOfDigit_wf {d : Nat} (h : d < 10) : (modeOfDigit d).wf = true := by
  interval_cases d <;> rfl

/-- The modes of an instruction's parameters, in address order. -/
def Instr.modes (i : Instr) : List Mode := i.params.map Prod.snd

theorem Instr.wf_iff_modes (i : Instr) : i.wf = true ↔ ∀ m ∈ i.modes, m.wf = true := by
  simp [Instr.wf, Instr.modes, forall_comm (α := Role)]

theorem Instr.modeDigit_eq (i : Instr) (k : Nat) : i.modeDigit k = (i.modes[k - 1]?.map Mode.digit).getD 0 := by
  unfold Instr.modeDigit Instr.modes
  cases h : i.params[k - 1]? <;> simp [h]

theorem Instr.params_length_le (i : Instr) : i.params.length ≤ 3 := by
  cases i <;> simp [Instr.params]

/-! ### The decoder -/

/-- The opcode map: the instruction with the opcode selected, its modes those of its first mode digits. -/
theorem selectInstr_eq_ok {f : Fields} {i : Instr} :
    selectInstr f = .ok i ↔ i.opcode = f.opcode ∧
      i.modes = [modeOfDigit f.modeA, modeOfDigit f.modeB, modeOfDigit f.modeC].take i.params.length := by
  constructor
  · unfold selectInstr
    split <;> rintro ⟨⟩ <;> simp [*, Instr.opcode, Instr.modes, Instr.params]
  · rintro ⟨hop, hmodes⟩
    cases i <;> simp_all [selectInstr, ← hop, Instr.opcode, Instr.modes, Instr.params]

theorem selectInstr_eq_error {f : Fields} {e : DecodeError} :
    selectInstr f = .error e ↔ (f.opcode : Int) ∉ opcodes ∧ e = .unknownOpcode f.opcode := by
  unfold selectInstr opcodes
  split
  case h_11 => simp_all [eq_comm]; omega
  all_goals simp_all

theorem decode_of_nonneg {w : Word} (h : 0 ≤ w.toInt) : decode w = selectInstr (fields w.toInt.toNat) :=
  if_neg (not_lt.mpr h)

theorem decode_of_neg {w : Word} (h : w.toInt < 0) : decode w = .error (.negativeWord w.toInt) := if_pos h

theorem natCast_mod_hundred {w : Word} (h : 0 ≤ w.toInt) : ((w.toInt.toNat % 100 : Nat) : Int) = w.toInt % 100 := by
  omega

/-- The first mode digits of a word, as modes (30_encoding.md R51, R58). -/
def modesAt (w : Word) (n : Nat) : List Mode := [modeAt w 100, modeAt w 1000, modeAt w 10000].take n

/-- The modes the decoder reads are those of the word's digits. -/
theorem modes_of_fields {w : Word} (h : 0 ≤ w.toInt) :
    [modeOfDigit (fields w.toInt.toNat).modeA, modeOfDigit (fields w.toInt.toNat).modeB,
      modeOfDigit (fields w.toInt.toNat).modeC] = [modeAt w 100, modeAt w 1000, modeAt w 10000] := by
  have hA : w.toInt.toNat / 100 % 10 = (w.toInt / 100 % 10).toNat := by omega
  have hB : w.toInt.toNat / 1000 % 10 = (w.toInt / 1000 % 10).toNat := by omega
  have hC : w.toInt.toNat / 10000 % 10 = (w.toInt / 10000 % 10).toNat := by omega
  simp [fields, modeAt, hA, hB, hC]

/-- The instruction a word selects: the word is not negative, its opcode field is the instruction's opcode, and its
first mode digits are the modes of the parameters the opcode has. -/
theorem decode_eq_ok {w : Word} {i : Instr} :
    decode w = .ok i ↔ 0 ≤ w.toInt ∧ (i.opcode : Int) = w.toInt % 100 ∧ i.modes = modesAt w i.params.length := by
  rcases lt_or_ge w.toInt 0 with h | h
  · simp [decode_of_neg h, not_le.mpr h]
  · rw [decode_of_nonneg h, selectInstr_eq_ok, modes_of_fields h, ← natCast_mod_hundred h, Nat.cast_inj]
    exact (and_iff_right h).symm

/-- The words that select no instruction, and why (30_encoding.md R52, R57). -/
theorem decode_eq_error {w : Word} {e : DecodeError} :
    decode w = .error e ↔ (w.toInt < 0 ∧ e = .negativeWord w.toInt) ∨
      (0 ≤ w.toInt ∧ w.toInt % 100 ∉ opcodes ∧ e = .unknownOpcode (w.toInt.toNat % 100)) := by
  rcases lt_or_ge w.toInt 0 with h | h
  · simp [decode_of_neg h, h, not_le.mpr h, eq_comm]
  · rw [decode_of_nonneg h, selectInstr_eq_error, ← natCast_mod_hundred h]
    simp [h, not_lt.mpr h, fields]

/-- A family of instructions with one opcode and the modes given is selected by every word with that opcode field. -/
theorem selectedBy {n : Nat} {build : Mode → Mode → Mode → Instr} (hop : ∀ a b c, (build a b c).opcode = n)
    (hmodes : ∀ a b c, (build a b c).modes = [a, b, c].take (build a b c).params.length) : SelectedBy n build :=
  fun w h hw => decode_eq_ok.mpr ⟨h, by rw [hop, hw], hmodes _ _ _⟩

/-- Settles O1: the decoder evaluated on each of the words. -/
theorem sampleWordsDecode : Obligations.SampleWordsDecode := by
  unfold Obligations.SampleWordsDecode
  decide

/-! ### The canonical word -/

theorem canonicalWord_bounds (i : Instr) : Laws.CanonicalWord.Statement i := by
  cases i with
  | add a b c => exact Laws.CanonicalWord.add a b c
  | mul a b c => exact Laws.CanonicalWord.mul a b c
  | inp a => exact Laws.CanonicalWord.inp a
  | out a => exact Laws.CanonicalWord.out a
  | jt a b => exact Laws.CanonicalWord.jt a b
  | jf a b => exact Laws.CanonicalWord.jf a b
  | lt a b c => exact Laws.CanonicalWord.lt a b c
  | eq a b c => exact Laws.CanonicalWord.eq a b c
  | arb a => exact Laws.CanonicalWord.arb a
  | hlt => exact Laws.CanonicalWord.hlt

/-- The value of the canonical word. -/
theorem toInt_encode {i : Instr} (h : i.wf = true) :
    (encode i).toInt = i.opcode + 100 * i.modeDigit 1 + 1000 * i.modeDigit 2 + 10000 * i.modeDigit 3 := by
  obtain ⟨hlt, -⟩ := canonicalWord_bounds i h
  rw [encode, Word.toInt_ofInt ⟨by simp only [wordMin]; omega, by simp only [wordMax]; omega⟩]
  push_cast
  rfl

theorem Instr.modeDigit_lt {i : Instr} (h : i.wf = true) (k : Nat) : i.modeDigit k < 10 := by
  rw [Instr.modeDigit_eq]
  cases hm : i.modes[k - 1]? with
  | none => simp
  | some m => exact Mode.digit_lt_of_wf ((Instr.wf_iff_modes i).mp h m (List.mem_of_getElem? hm))

/-- The modes of a well-formed instruction are those of its mode digits. -/
theorem Instr.modes_eq_of_wf {i : Instr} (h : i.wf = true) :
    i.modes = [modeOfDigit (i.modeDigit 1), modeOfDigit (i.modeDigit 2), modeOfDigit (i.modeDigit 3)].take
      i.params.length := by
  have hwf := (Instr.wf_iff_modes i).mp h
  have hlen : i.modes.length = i.params.length := by simp [Instr.modes]
  have hle := i.params_length_le
  simp only [Instr.modeDigit_eq]
  rw [← hlen] at hle ⊢
  generalize i.modes = ms at hwf hle
  match ms, hle with
  | [], _ => rfl
  | [a], _ => simp_all [modeOfDigit_digit]
  | [a, b], _ => simp_all [modeOfDigit_digit]
  | [a, b, c], _ => simp_all [modeOfDigit_digit]

/-- Settles O2: the canonical word of a well-formed instruction is a five-digit numeral (`toInt_encode`), whose digits
are the opcode and the mode digits, and those determine the instruction (`decode_eq_ok`). -/
theorem decodeOfEncode : Obligations.DecodeOfEncode := by
  intro i h
  have hw := toInt_encode h
  obtain ⟨-, hop, -⟩ := canonicalWord_bounds i h
  have h1 := Instr.modeDigit_lt h 1
  have h2 := Instr.modeDigit_lt h 2
  have h3 := Instr.modeDigit_lt h 3
  have hA : ((encode i).toInt / 100 % 10).toNat = i.modeDigit 1 := by omega
  have hB : ((encode i).toInt / 1000 % 10).toNat = i.modeDigit 2 := by omega
  have hC : ((encode i).toInt / 10000 % 10).toNat = i.modeDigit 3 := by omega
  refine decode_eq_ok.mpr ⟨by omega, by omega, ?_⟩
  rw [modesAt, modeAt, modeAt, modeAt, hA, hB, hC]
  exact Instr.modes_eq_of_wf h

/-! ### Unused digits -/

theorem modeAt_wf (w : Word) (weight : Int) : (modeAt w weight).wf = true := modeOfDigit_wf (by omega)

theorem digit_modeAt (w : Word) (weight : Int) : ((modeAt w weight).digit : Int) = w.toInt / weight % 10 := by
  rw [modeAt, digit_modeOfDigit]
  omega

/-- Only the low two digits and the mode digits counted decide the modes. -/
theorem modesAt_congr {w w' : Word} {n : Nat} (h : w'.toInt % (100 * 10 ^ n) = w.toInt % (100 * 10 ^ n)) (hn : n ≤ 3) :
    modesAt w' n = modesAt w n := by
  simp only [modesAt, modeAt]
  interval_cases n
  · simp
  · have hA : w'.toInt / 100 % 10 = w.toInt / 100 % 10 := by omega
    simp [hA]
  · have hA : w'.toInt / 100 % 10 = w.toInt / 100 % 10 := by omega
    have hB : w'.toInt / 1000 % 10 = w.toInt / 1000 % 10 := by omega
    simp [hA, hB]
  · have hA : w'.toInt / 100 % 10 = w.toInt / 100 % 10 := by omega
    have hB : w'.toInt / 1000 % 10 = w.toInt / 1000 % 10 := by omega
    have hC : w'.toInt / 10000 % 10 = w.toInt / 10000 % 10 := by omega
    simp [hA, hB, hC]

/-- Settles O4: the digits in which the two words agree are all that `decode_eq_ok` asks for. -/
theorem unusedDigitsAreIgnored : Obligations.UnusedDigitsAreIgnored := by
  intro w w' i h h' hmod
  obtain ⟨-, hop, hmodes⟩ := decode_eq_ok.mp h
  have hlow : w'.toInt % 100 = w.toInt % 100 := by
    have := congrArg (· % (100 : Int)) hmod
    simpa [Int.emod_emod_of_dvd] using this
  exact decode_eq_ok.mpr ⟨h', hlow ▸ hop, hmodes.trans (modesAt_congr hmod i.params_length_le).symm⟩

/-- Settles O3: the modes are modes of digits, so they are well formed, and writing those digits again after the opcode
gives the word up to the last of them. -/
theorem canonicalWordOfDecoded : Obligations.CanonicalWordOfDecoded := by
  intro w i h
  obtain ⟨h0, hop, hmodes⟩ := decode_eq_ok.mp h
  have hwf : i.wf = true := by
    refine (Instr.wf_iff_modes i).mpr fun m hm => ?_
    have hmem := List.mem_of_mem_take (hmodes ▸ hm)
    simp only [List.mem_cons, List.not_mem_nil, or_false] at hmem
    rcases hmem with rfl | rfl | rfl <;> exact modeAt_wf _ _
  refine ⟨hwf, ?_⟩
  have hle := i.params_length_le
  rw [toInt_encode hwf, Instr.modeDigit_eq, Instr.modeDigit_eq, Instr.modeDigit_eq, hmodes, hop]
  generalize i.params.length = n at hle
  interval_cases n <;> simp [modesAt, digit_modeAt] <;> omega

end Sys2Proof

/-! SUPPORT. The proofs about parameters (40_operand_resolution.md): the resolver answers what the relations of
`Safety.lean` say, and the lowest-numbered faulty parameter is the one reported (R75). -/

namespace Sys2Proof.Machine

open Sys2Proof.Safety

section
variable {s : State} {k : Nat} {m : Mode} {c : Cause} {info : Int}

/-! ### Candidate addresses -/

theorem effAddr_eq_error {v : Int} : effAddr s v = .error ⟨c, info⟩ ↔ AddressFaults s v c info := by
  unfold effAddr
  constructor
  · split
    · next h => rintro ⟨⟩; exact .overflow _ h
    · next h =>
      have hv := not_not.mp h
      split
      · next hneg => rintro ⟨⟩; exact .negative _ hv hneg
      · split
        · rintro ⟨⟩; exact .exhausted _ hv (by omega)
        · nofun
  · rintro (h | ⟨hv, hneg⟩ | ⟨hv, hsize⟩)
    · exact if_pos h
    · rw [if_neg (not_not.mpr hv), if_pos hneg]
    · rw [if_neg (not_not.mpr hv), if_neg (by omega), if_pos (by omega)]

/-- Settles O6: the four clauses are the branches of `effAddr`. -/
theorem effAddrChecksInOrder : Obligations.EffAddrChecksInOrder := fun _ v =>
  ⟨fun h => effAddr_eq_error.mpr (.overflow v h), fun hv h => effAddr_eq_error.mpr (.negative v hv h),
    fun hv _ h => effAddr_eq_error.mpr (.exhausted v hv h), fun _ hv ha h => effAddr_eq_ok.mpr ⟨hv, ha, h⟩⟩

/-- A read at a candidate address: the cell of the address it resolves to. -/
theorem readAt_eq_ok {v : Int} {w : Word} :
    (effAddr s v >>= memRead s) = .ok w ↔ ∃ a : Nat, InWord v ∧ v = a ∧ a < s.memSize ∧ s.cell a = w := by
  rw [bind_eq_ok]
  refine exists_congr fun a => ?_
  rw [effAddr_eq_ok, memRead_eq_ok]
  tauto

/-- A read at a candidate address faults as the candidate does: an address that resolves exists. -/
theorem readAt_eq_error {v : Int} : (effAddr s v >>= memRead s) = .error ⟨c, info⟩ ↔ AddressFaults s v c info := by
  rw [bind_eq_error, effAddr_eq_error]
  refine or_iff_left ?_
  rintro ⟨a, ha, hread⟩
  obtain ⟨-, -, hlt⟩ := effAddr_eq_ok.mp ha
  rw [memRead_of_lt hlt] at hread
  cases hread

/-! ### Read parameters -/

theorem rdParam_of_le (h : s.memSize ≤ s.pc + k) : rdParam s k m = .error ⟨.exhaustedMemory, (s.pc + k : Nat)⟩ := by
  rw [rdParam, rawOperand, memRead_of_le h, bind_error]

theorem rdParam_of_lt (h : s.pc + k < s.memSize) : rdParam s k m =
    match m with
    | .position => effAddr s (s.cell (s.pc + k)).toInt >>= memRead s
    | .immediate => .ok (s.cell (s.pc + k))
    | .relative => effAddr s (s.rb.toInt + (s.cell (s.pc + k)).toInt) >>= memRead s
    | .reserved d => .error ⟨.invalidMode, 10 * k + d⟩ := by
  rw [rdParam, rawOperand, memRead_of_lt h]
  cases m <;> rfl

/-- The raw operand of a parameter that is read exists. -/
theorem reads_lt {v : Word} (h : Reads s k m v) : s.pc + k < s.memSize := by
  cases h <;> assumption

theorem rdParam_eq_ok {v : Word} : rdParam s k m = .ok v ↔ Reads s k m v := by
  rcases lt_or_ge (s.pc + k) s.memSize with h | h
  · rw [rdParam_of_lt h]
    cases m with
    | position =>
      rw [readAt_eq_ok]
      constructor
      · rintro ⟨a, -, ha, hlt, rfl⟩; exact .position a h ha hlt
      · rintro ⟨a, -, ha, hlt⟩; exact ⟨a, Word.inWord_toInt _, ha, hlt, rfl⟩
    | immediate =>
      constructor
      · rintro ⟨⟩; exact .immediate h
      · rintro ⟨⟩; rfl
    | relative =>
      rw [readAt_eq_ok]
      constructor
      · rintro ⟨a, hw, ha, hlt, rfl⟩; exact .relative a h ha (ha ▸ hw) hlt
      · rintro (_ | _ | ⟨a, -, ha, hw, hlt⟩); exact ⟨a, ha ▸ hw, ha, hlt, rfl⟩
    | reserved d => exact ⟨nofun, nofun⟩
  · rw [rdParam_of_le h]
    exact ⟨nofun, fun hr => absurd h (not_le.mpr (reads_lt hr))⟩

theorem rdParam_eq_error : rdParam s k m = .error ⟨c, info⟩ ↔ ReadFaults s k m c info := by
  rcases lt_or_ge (s.pc + k) s.memSize with h | h
  · rw [rdParam_of_lt h]
    cases m with
    | position =>
      rw [readAt_eq_error]
      constructor
      · exact .position c info h
      · rintro (⟨_, hle⟩ | ⟨_, _, -, ha⟩)
        exacts [absurd h (not_lt.mpr hle), ha]
    | immediate =>
      refine ⟨nofun, ?_⟩
      rintro ⟨_, hle⟩
      exact absurd h (not_lt.mpr hle)
    | relative =>
      rw [readAt_eq_error]
      constructor
      · exact .relative c info h
      · rintro (⟨_, hle⟩ | ⟨_, _, -, ha⟩ | ⟨_, _, -, ha⟩)
        exacts [absurd h (not_lt.mpr hle), ha]
    | reserved d =>
      constructor
      · rintro ⟨⟩; exact .reserved d h
      · rintro (⟨_, hle⟩ | ⟨_, -⟩)
        exacts [absurd h (not_lt.mpr hle), rfl]
  · rw [rdParam_of_le h]
    constructor
    · rintro ⟨⟩; exact .noWord m h
    · rintro (⟨_, -⟩ | ⟨_, _, hlt, -⟩ | ⟨_, _, hlt, -⟩ | ⟨_, hlt⟩)
      exacts [rfl, absurd h (not_le.mpr hlt), absurd h (not_le.mpr hlt), absurd h (not_le.mpr hlt)]

/-- Settles O7: `rdParam` answers the values of `Reads` and the faults of `ReadFaults`. -/
theorem readParameterIsAsStated : Obligations.ReadParameterIsAsStated :=
  fun _ _ _ => ⟨fun _ => rdParam_eq_ok, fun _ _ => rdParam_eq_error⟩

/-! ### Write parameters -/

theorem wrAddr_of_le (h : s.memSize ≤ s.pc + k) : wrAddr s k m = .error ⟨.exhaustedMemory, (s.pc + k : Nat)⟩ := by
  rw [wrAddr, rawOperand, memRead_of_le h, bind_error]

theorem wrAddr_of_lt (h : s.pc + k < s.memSize) : wrAddr s k m =
    match m with
    | .position => effAddr s (s.cell (s.pc + k)).toInt
    | .immediate => .error ⟨.immediateWriteTarget, k⟩
    | .relative => effAddr s (s.rb.toInt + (s.cell (s.pc + k)).toInt)
    | .reserved d => .error ⟨.invalidMode, 10 * k + d⟩ := by
  rw [wrAddr, rawOperand, memRead_of_lt h]
  cases m <;> rfl

theorem designates_lt {a : Nat} (h : Designates s k m a) : s.pc + k < s.memSize := by
  cases h <;> assumption

theorem wrAddr_eq_ok {a : Nat} : wrAddr s k m = .ok a ↔ Designates s k m a := by
  rcases lt_or_ge (s.pc + k) s.memSize with h | h
  · rw [wrAddr_of_lt h]
    cases m with
    | position =>
      rw [effAddr_eq_ok]
      constructor
      · rintro ⟨-, ha, hlt⟩; exact .position a h ha hlt
      · rintro ⟨_, -, ha, hlt⟩; exact ⟨Word.inWord_toInt _, ha, hlt⟩
    | immediate => exact ⟨nofun, nofun⟩
    | relative =>
      rw [effAddr_eq_ok]
      constructor
      · rintro ⟨hw, ha, hlt⟩; exact .relative a h ha (ha ▸ hw) hlt
      · rintro (_ | ⟨_, -, ha, hw, hlt⟩); exact ⟨ha ▸ hw, ha, hlt⟩
    | reserved d => exact ⟨nofun, nofun⟩
  · rw [wrAddr_of_le h]
    exact ⟨nofun, fun hd => absurd h (not_le.mpr (designates_lt hd))⟩

theorem wrAddr_eq_error : wrAddr s k m = .error ⟨c, info⟩ ↔ WriteFaults s k m c info := by
  rcases lt_or_ge (s.pc + k) s.memSize with h | h
  · rw [wrAddr_of_lt h]
    cases m with
    | position =>
      rw [effAddr_eq_error]
      constructor
      · exact .position c info h
      · rintro (⟨_, hle⟩ | ⟨_, _, -, ha⟩)
        exacts [absurd h (not_lt.mpr hle), ha]
    | immediate =>
      constructor
      · rintro ⟨⟩; exact .immediate h
      · rintro (⟨_, hle⟩ | _ | -)
        exacts [absurd h (not_lt.mpr hle), rfl]
    | relative =>
      rw [effAddr_eq_error]
      constructor
      · exact .relative c info h
      · rintro (⟨_, hle⟩ | _ | _ | ⟨_, _, -, ha⟩)
        exacts [absurd h (not_lt.mpr hle), ha]
    | reserved d =>
      constructor
      · rintro ⟨⟩; exact .reserved d h
      · rintro (⟨_, hle⟩ | _ | _ | _ | ⟨_, -⟩)
        exacts [absurd h (not_lt.mpr hle), rfl]
  · rw [wrAddr_of_le h]
    constructor
    · rintro ⟨⟩; exact .noWord m h
    · rintro (⟨_, -⟩ | ⟨_, _, hlt, -⟩ | hlt | ⟨_, _, hlt, -⟩ | ⟨_, hlt⟩)
      exacts [rfl, absurd h (not_le.mpr hlt), absurd h (not_le.mpr hlt), absurd h (not_le.mpr hlt),
        absurd h (not_le.mpr hlt)]

/-- Settles O8: `wrAddr` answers the addresses of `Designates` and the faults of `WriteFaults`. -/
theorem writeParameterIsAsStated : Obligations.WriteParameterIsAsStated :=
  fun _ _ _ => ⟨fun _ => wrAddr_eq_ok, fun _ _ => wrAddr_eq_error⟩

end

end Sys2Proof.Machine

/-! SUPPORT. What an instruction does, said once for all ten: it faults with its first faulty parameter, or with its
operation, or it completes (60_exceptions.md R153). The proofs about instructions, steps and invariants go by these. -/

namespace Sys2Proof.Machine

open Sys2Proof.Safety

section
variable {s t : State} {k : Nat} {i : Instr} {c : Cause} {info : Int}

/-! ### The first faulty parameter -/

/-- The resolution of one parameter, its result dropped. -/
def checkParam (s : State) (k : Nat) : Role × Mode → Except Raised Unit
  | (.read, m) => do let _ ← rdParam s k m; .ok ()
  | (.write, m) => do let _ ← wrAddr s k m; .ok ()

/-- The resolution of parameters in order, from number `k` on, their results dropped (40_operand_resolution.md R75). -/
def checkParams (s : State) (k : Nat) : List (Role × Mode) → Except Raised Unit
  | [] => .ok ()
  | p :: ps => do
    checkParam s k p
    checkParams s (k + 1) ps

theorem checkParam_eq_ok {p : Role × Mode} {u : Unit} : checkParam s k p = .ok u ↔ Resolves s k p := by
  obtain ⟨_ | _, m⟩ := p <;> simp [checkParam, Resolves, bind_eq_ok, rdParam_eq_ok, wrAddr_eq_ok]

theorem checkParam_eq_error {p : Role × Mode} : checkParam s k p = .error ⟨c, info⟩ ↔ ParamFaults s k p c info := by
  obtain ⟨_ | _, m⟩ := p <;> simp [checkParam, ParamFaults, bind_eq_error, rdParam_eq_error, wrAddr_eq_error]

theorem checkParams_cons_eq_ok {p : Role × Mode} {ps : List (Role × Mode)} :
    checkParams s k (p :: ps) = .ok () ↔ Resolves s k p ∧ checkParams s (k + 1) ps = .ok () := by
  simp [checkParams, bind_eq_ok, checkParam_eq_ok]

/-- The checks fail with the fault of the first parameter that does not resolve. -/
theorem checkParams_eq_error {ps : List (Role × Mode)} : checkParams s k ps = .error ⟨c, info⟩ ↔
    ∃ j p, ps[j]? = some p ∧ (∀ j' p', j' < j → ps[j']? = some p' → Resolves s (j' + k) p') ∧
      ParamFaults s (j + k) p c info := by
  induction ps generalizing k with
  | nil => simp [checkParams]
  | cons p ps ih =>
    rw [checkParams, bind_eq_error, checkParam_eq_error]
    simp only [checkParam_eq_ok, exists_const, ih]
    constructor
    · rintro (h | ⟨hp, j, q, hq, hbefore, h⟩)
      · exact ⟨0, p, rfl, nofun, by simpa using h⟩
      · refine ⟨j + 1, q, hq, ?_, by rwa [Nat.add_right_comm]⟩
        rintro (_ | j') q' hj hq'
        · cases hq'
          simpa using hp
        · rw [Nat.add_right_comm]
          exact hbefore j' q' (Nat.lt_of_succ_lt_succ hj) hq'
    · rintro ⟨_ | j, q, hq, hbefore, h⟩
      · cases hq
        exact .inl (by simpa using h)
      · refine .inr ⟨by simpa using hbefore 0 p (Nat.succ_pos j) rfl, j, q, hq, ?_, by rwa [Nat.add_right_comm] at h⟩
        intro j' q' hj hq'
        rw [← Nat.add_assoc, Nat.add_right_comm]
        exact hbefore (j' + 1) q' (Nat.succ_lt_succ hj) hq'

theorem firstFault_iff_checkParams : FirstFault i s c info ↔ checkParams s 1 i.params = .error ⟨c, info⟩ :=
  checkParams_eq_error.symm

/-! ### The two shapes with several instructions -/

/-- The shape of ADD, MUL, LT and EQ: two values, the address of the third parameter, and a store of what `op` makes of
the values. -/
def execStoring (op : Word → Word → Except Raised Word) (ma mb mc : Mode) (s : State) :
    Host.Outcome State Fault Refusal :=
  settle s do
    let a ← rdParam s 1 ma
    let b ← rdParam s 2 mb
    let d ← wrAddr s 3 mc
    let r ← op a b
    .ok ((s.store d r).advance 4)

/-- The instructions of that shape, each with its modes and what it makes of its two values. -/
inductive Storing : Instr → Mode → Mode → Mode → (Word → Word → Except Raised Word) → Prop
  | add (ma mb mc : Mode) : Storing (.add ma mb mc) ma mb mc fun a b => inRange (a.toInt + b.toInt)
  | mul (ma mb mc : Mode) : Storing (.mul ma mb mc) ma mb mc fun a b => inRange (a.toInt * b.toInt)
  | lt (ma mb mc : Mode) : Storing (.lt ma mb mc) ma mb mc fun a b => .ok (truth (lessThan a b))
  | eq (ma mb mc : Mode) : Storing (.eq ma mb mc) ma mb mc fun a b => .ok (truth (equals a b))

/-- The shape of JT and JF: two values, and a branch on a test of the first. -/
def execJump (test : Word → Bool) (ma mb : Mode) (s : State) : Host.Outcome State Fault Refusal :=
  settle s do
    let a ← rdParam s 1 ma
    let b ← rdParam s 2 mb
    branch s (test a) b

/-- The instructions of that shape, each with its modes and its test. -/
inductive Jumping : Instr → Mode → Mode → (Word → Bool) → Prop
  | jt (ma mb : Mode) : Jumping (.jt ma mb) ma mb nonZero
  | jf (ma mb : Mode) : Jumping (.jf ma mb) ma mb fun a => !nonZero a

section
variable {ma mb mc : Mode} {a b : Word} {d : Nat}

theorem Storing.params_eq {op} (h : Storing i ma mb mc op) : i.params = [(.read, ma), (.read, mb), (.write, mc)] := by
  cases h <;> rfl

theorem Storing.exec_eq {op} (h : Storing i ma mb mc op) (s : State) : exec i s = execStoring op ma mb mc s := by
  cases h <;> rfl

theorem Jumping.params_eq {test} (h : Jumping i ma mb test) : i.params = [(.read, ma), (.read, mb)] := by
  cases h <;> rfl

theorem Jumping.exec_eq {test} (h : Jumping i ma mb test) (s : State) : exec i s = execJump test ma mb s := by
  cases h <;> rfl

/-! ### An instruction whose parameters resolve -/

theorem exec_storing {op} (h : Storing i ma mb mc op) (ha : Reads s 1 ma a) (hb : Reads s 2 mb b)
    (hd : Designates s 3 mc d) :
    exec i s = settle s (do let r ← op a b; .ok ((s.store d r).advance 4)) := by
  simp [h.exec_eq, execStoring, rdParam_eq_ok.mpr ha, rdParam_eq_ok.mpr hb, wrAddr_eq_ok.mpr hd]

theorem exec_jumping {test} (h : Jumping i ma mb test) (ha : Reads s 1 ma a) (hb : Reads s 2 mb b) :
    exec i s = settle s (branch s (test a) b) := by
  simp [h.exec_eq, execJump, rdParam_eq_ok.mpr ha, rdParam_eq_ok.mpr hb]

theorem exec_inp_of_cons {v : Word} {rest : List Word} (hd : Designates s 1 ma d) (hq : s.inq = v :: rest) :
    exec (.inp ma) s = .next (((s.setInq rest).store d v).advance 2) := by
  simp [exec, execIn, wrAddr_eq_ok.mpr hd, hq]

theorem exec_inp_of_nil (hd : Designates s 1 ma d) (hq : s.inq = []) : exec (.inp ma) s = .next s.suspend := by
  simp [exec, execIn, wrAddr_eq_ok.mpr hd, hq]

theorem exec_out (ha : Reads s 1 ma a) : exec (.out ma) s = .next ((s.pushOut a).advance 2) := by
  simp [exec, execOut, rdParam_eq_ok.mpr ha]

theorem exec_arb (ha : Reads s 1 ma a) : exec (.arb ma) s =
    settle s (do let r ← inRange (s.rb.toInt + a.toInt); .ok ((s.setRb r).advance 2)) := by
  simp [exec, execArb, rdParam_eq_ok.mpr ha]

theorem exec_hlt (s : State) : exec .hlt s = .next s.halt := rfl

end

/-! ### An instruction with a faulty parameter -/

/-- What reads a parameter first fails as the checks do, if what comes after the read does. -/
theorem bind_read_eq_error {α : Type} {m : Mode} {ps : List (Role × Mode)} {g : Word → Except Raised α} {f : Raised}
    (h : checkParams s k ((.read, m) :: ps) = .error f)
    (hrest : ∀ v, checkParams s (k + 1) ps = .error f → g v = .error f) : (rdParam s k m >>= g) = .error f := by
  rw [checkParams, checkParam] at h
  cases hv : rdParam s k m with
  | ok v => rw [hv] at h; exact hrest v h
  | error e => rw [hv] at h; cases h; rfl

theorem bind_write_eq_error {α : Type} {m : Mode} {ps : List (Role × Mode)} {g : Nat → Except Raised α} {f : Raised}
    (h : checkParams s k ((.write, m) :: ps) = .error f)
    (hrest : ∀ a, checkParams s (k + 1) ps = .error f → g a = .error f) : (wrAddr s k m >>= g) = .error f := by
  rw [checkParams, checkParam] at h
  cases ha : wrAddr s k m with
  | ok a => rw [ha] at h; exact hrest a h
  | error e => rw [ha] at h; cases h; rfl

theorem exec_storing_of_error {ma mb mc : Mode} {op} {f : Raised} (hi : Storing i ma mb mc op)
    (h : checkParams s 1 i.params = .error f) : exec i s = .next (s.faultEntry f) := by
  rw [hi.params_eq] at h
  rw [hi.exec_eq, execStoring,
    bind_read_eq_error h fun _ h => bind_read_eq_error h fun _ h => bind_write_eq_error h nofun]
  rfl

theorem exec_jumping_of_error {ma mb : Mode} {test} {f : Raised} (hi : Jumping i ma mb test)
    (h : checkParams s 1 i.params = .error f) : exec i s = .next (s.faultEntry f) := by
  rw [hi.params_eq] at h
  rw [hi.exec_eq, execJump, bind_read_eq_error h fun _ h => bind_read_eq_error h nofun]
  rfl

theorem exec_of_checkParams_error {f : Raised} (h : checkParams s 1 i.params = .error f) :
    exec i s = .next (s.faultEntry f) := by
  cases i with
  | add a b c => exact exec_storing_of_error (.add a b c) h
  | mul a b c => exact exec_storing_of_error (.mul a b c) h
  | lt a b c => exact exec_storing_of_error (.lt a b c) h
  | eq a b c => exact exec_storing_of_error (.eq a b c) h
  | jt a b => exact exec_jumping_of_error (.jt a b) h
  | jf a b => exact exec_jumping_of_error (.jf a b) h
  | inp a => rw [exec, execIn, bind_write_eq_error h nofun]; rfl
  | out a => rw [exec, execOut, bind_read_eq_error h nofun]; rfl
  | arb a => rw [exec, execArb, bind_read_eq_error h nofun]; rfl
  | hlt => cases h

/-- An instruction with a faulty parameter ends in fault entry with the first fault. -/
theorem exec_of_firstFault (h : FirstFault i s c info) : exec i s = .next (s.faultEntry ⟨c, info⟩) :=
  exec_of_checkParams_error (firstFault_iff_checkParams.mp h)

/-- Fault entry of an instruction whose own word exists. -/
theorem faultEntry_eq_faulted (h : s.pc < s.memSize) : s.faultEntry ⟨c, info⟩ = faulted s c info := by
  rw [State.faultEntry, fetchedWord_of_lt h, faulted]

theorem parametersFaultInOrder (i : Instr) (s : State) : ParametersFaultInOrder i s :=
  fun _ _ hpc h => faultEntry_eq_faulted hpc ▸ exec_of_firstFault h

/-! ### An instruction that completes -/

/-- What instruction `i` does where it completes: the eight ways, each with what it found. -/
inductive Completes (s : State) : Instr → State → Prop
  | stored {i : Instr} {ma mb mc : Mode} {op : Word → Word → Except Raised Word} {a b r : Word} {d : Nat} :
      Storing i ma mb mc op → Reads s 1 ma a → Reads s 2 mb b → Designates s 3 mc d → op a b = .ok r →
      Completes s i ((s.store d r).advance 4)
  | received {m : Mode} {d : Nat} {v : Word} {rest : List Word} : Designates s 1 m d → s.inq = v :: rest →
      Completes s (.inp m) (((s.setInq rest).store d v).advance 2)
  | waits {m : Mode} {d : Nat} : Designates s 1 m d → s.inq = [] → Completes s (.inp m) s.suspend
  | sent {m : Mode} {a : Word} : Reads s 1 m a → Completes s (.out m) ((s.pushOut a).advance 2)
  | jumped {i : Instr} {ma mb : Mode} {test : Word → Bool} {a b : Word} {x : Nat} : Jumping i ma mb test →
      Reads s 1 ma a → Reads s 2 mb b → test a = true → b.toInt = x → Completes s i (s.jump x)
  | passed {i : Instr} {ma mb : Mode} {test : Word → Bool} {a b : Word} : Jumping i ma mb test →
      Reads s 1 ma a → Reads s 2 mb b → test a = false → Completes s i (s.advance 3)
  | rebased {m : Mode} {a r : Word} : Reads s 1 m a → r.toInt = s.rb.toInt + a.toInt →
      Completes s (.arb m) ((s.setRb r).advance 2)
  | halted : Completes s .hlt s.halt

/-- The operation of an instruction faults in the ways of `OperationFaults`: a result that is not a word, or a negative
target of a jump that is taken. -/
theorem operationFaults_of_storing {ma mb mc : Mode} {op} {a b : Word} {d : Nat} {f : Raised}
    (hi : Storing i ma mb mc op) (ha : Reads s 1 ma a) (hb : Reads s 2 mb b) (hd : Designates s 3 mc d)
    (hf : op a b = .error f) : OperationFaults s i f.cause f.info := by
  cases hi with
  | add => obtain ⟨hw, rfl⟩ := inRange_eq_error.mp hf; exact .add ma mb mc a b d ha hb hd hw
  | mul => obtain ⟨hw, rfl⟩ := inRange_eq_error.mp hf; exact .mul ma mb mc a b d ha hb hd hw
  | lt => cases hf
  | eq => cases hf

theorem operationFaults_of_jumping {ma mb : Mode} {test} {a b : Word} {f : Raised}
    (hi : Jumping i ma mb test) (ha : Reads s 1 ma a) (hb : Reads s 2 mb b)
    (htest : test a = true) (hf : jumpTarget b = .error f) : OperationFaults s i f.cause f.info := by
  obtain ⟨hneg, rfl⟩ := jumpTarget_eq_error.mp hf
  cases hi with
  | jt => exact .jt ma mb a b ha hb (by simpa [nonZero] using htest) hneg
  | jf => exact .jf ma mb a b ha hb (by simpa [nonZero] using htest) hneg

/-- What an instruction ends in, when its parameters resolve: it completes, or its operation faults. -/
def Ends (i : Instr) (s t : State) : Prop :=
  Completes s i t ∨ ∃ f : Raised, t = s.faultEntry f ∧ OperationFaults s i f.cause f.info

theorem ends_of_storing {ma mb mc : Mode} {op} (hi : Storing i ma mb mc op) (hok : checkParams s 1 i.params = .ok ())
    (h : exec i s = .next t) : Ends i s t := by
  rw [hi.params_eq] at hok
  simp only [checkParams_cons_eq_ok] at hok
  obtain ⟨⟨a, ha⟩, ⟨b, hb⟩, ⟨d, hd⟩, -⟩ := hok
  rw [exec_storing hi ha hb hd] at h
  cases hr : op a b with
  | ok r => rw [hr] at h; cases h; exact .inl (.stored hi ha hb hd hr)
  | error f => rw [hr] at h; cases h; exact .inr ⟨f, rfl, operationFaults_of_storing hi ha hb hd hr⟩

theorem ends_of_jumping {ma mb : Mode} {test} (hi : Jumping i ma mb test) (hok : checkParams s 1 i.params = .ok ())
    (h : exec i s = .next t) : Ends i s t := by
  rw [hi.params_eq] at hok
  simp only [checkParams_cons_eq_ok] at hok
  obtain ⟨⟨a, ha⟩, ⟨b, hb⟩, -⟩ := hok
  rw [exec_jumping hi ha hb, branch] at h
  cases htest : test a with
  | false => rw [htest] at h; cases h; exact .inl (.passed hi ha hb htest)
  | true =>
    rw [htest, if_pos rfl] at h
    cases hx : jumpTarget b with
    | ok x => rw [hx] at h; cases h; exact .inl (.jumped hi ha hb htest (jumpTarget_eq_ok.mp hx))
    | error f => rw [hx] at h; cases h; exact .inr ⟨f, rfl, operationFaults_of_jumping hi ha hb htest hx⟩

theorem ends_of_inp {m : Mode} (hok : checkParams s 1 (Instr.inp m).params = .ok ())
    (h : exec (.inp m) s = .next t) : Ends (.inp m) s t := by
  obtain ⟨⟨d, hd⟩, -⟩ := checkParams_cons_eq_ok.mp hok
  cases hq : s.inq with
  | nil => cases (exec_inp_of_nil hd hq).symm.trans h; exact .inl (.waits hd hq)
  | cons v rest => cases (exec_inp_of_cons hd hq).symm.trans h; exact .inl (.received hd hq)

theorem ends_of_arb {m : Mode} (hok : checkParams s 1 (Instr.arb m).params = .ok ())
    (h : exec (.arb m) s = .next t) : Ends (.arb m) s t := by
  obtain ⟨⟨a, ha⟩, -⟩ := checkParams_cons_eq_ok.mp hok
  rw [exec_arb ha] at h
  cases hr : inRange (s.rb.toInt + a.toInt) with
  | ok r => rw [hr] at h; cases h; exact .inl (.rebased ha (inRange_eq_ok.mp hr))
  | error f =>
    rw [hr] at h
    cases h
    obtain ⟨hw, rfl⟩ := inRange_eq_error.mp hr
    exact .inr ⟨_, rfl, .arb m a ha hw⟩

theorem ends_of_checkParams_ok (hok : checkParams s 1 i.params = .ok ()) (h : exec i s = .next t) : Ends i s t := by
  cases i with
  | add a b c => exact ends_of_storing (.add a b c) hok h
  | mul a b c => exact ends_of_storing (.mul a b c) hok h
  | lt a b c => exact ends_of_storing (.lt a b c) hok h
  | eq a b c => exact ends_of_storing (.eq a b c) hok h
  | jt a b => exact ends_of_jumping (.jt a b) hok h
  | jf a b => exact ends_of_jumping (.jf a b) hok h
  | inp m => exact ends_of_inp hok h
  | out m =>
    obtain ⟨⟨a, ha⟩, -⟩ := checkParams_cons_eq_ok.mp hok
    cases (exec_out ha).symm.trans h
    exact .inl (.sent ha)
  | arb m => exact ends_of_arb hok h
  | hlt => cases h; exact .inl .halted

/-- What an instruction can end in: it completes, or it faults with its first faulty parameter or with its operation. -/
theorem exec_cases (h : exec i s = .next t) : Completes s i t ∨
    ∃ c info, t = s.faultEntry ⟨c, info⟩ ∧ (FirstFault i s c info ∨ OperationFaults s i c info) := by
  cases hp : checkParams s 1 i.params with
  | error f =>
    cases (exec_of_checkParams_error hp).symm.trans h
    exact .inr ⟨f.cause, f.info, rfl, .inl (firstFault_iff_checkParams.mpr hp)⟩
  | ok u =>
    obtain hc | ⟨f, rfl, hf⟩ := ends_of_checkParams_ok hp h
    exacts [.inl hc, .inr ⟨f.cause, f.info, rfl, .inr hf⟩]

/-- An operation that faults ends in fault entry. -/
theorem exec_of_operationFaults (h : OperationFaults s i c info) : exec i s = .next (s.faultEntry ⟨c, info⟩) := by
  cases h with
  | add ma mb mc a b d ha hb hd hw => rw [exec_storing (.add ma mb mc) ha hb hd, inRange_of_not_inWord hw]; rfl
  | mul ma mb mc a b d ha hb hd hw => rw [exec_storing (.mul ma mb mc) ha hb hd, inRange_of_not_inWord hw]; rfl
  | jt ma mb a b ha hb ht hneg =>
    rw [exec_jumping (.jt ma mb) ha hb, branch, if_pos (by simpa [nonZero] using ht),
      jumpTarget_eq_error.mpr ⟨hneg, rfl⟩]
    rfl
  | jf ma mb a b ha hb ht hneg =>
    rw [exec_jumping (.jf ma mb) ha hb, branch, if_pos (by simpa [nonZero] using ht),
      jumpTarget_eq_error.mpr ⟨hneg, rfl⟩]
    rfl
  | arb ma a ha hw => rw [exec_arb ha, inRange_of_not_inWord hw]; rfl

end

end Sys2Proof.Machine

/-! SUPPORT. The proofs about the single instructions (41_arithmetic.md to 46_halt.md): which words select them, what they
do where their parameters resolve, and which faults their modes can give. -/

namespace Sys2Proof.Machine

open Sys2Proof.Safety

section
variable {s t : State} {i : Instr} {ma mb mc : Mode} {a b : Word} {d : Nat}

/-! ### The storing instructions -/

theorem stores_setInq_store (s : State) (q : List Word) (a : Nat) (v : Word) (n : Nat) :
    Stores s (((s.setInq q).store a v).advance n) a v.toInt n q where
  stored := by simp
  elsewhere x hx := by simp [hx]
  pc := rfl
  rb := rfl
  rs := rfl
  diag := rfl
  inq := rfl
  outq := rfl
  memSize := rfl

/-- A storing instruction whose parameters resolve stores what its operation answers. -/
theorem exec_storing_of_ok {op} {r : Word} (hi : Storing i ma mb mc op) (ha : Reads s 1 ma a) (hb : Reads s 2 mb b)
    (hd : Designates s 3 mc d) (hr : op a b = .ok r) : ∃ t, exec i s = .next t ∧ Stores s t d r.toInt 4 s.inq :=
  ⟨_, by rw [exec_storing hi ha hb hd, hr]; rfl, stores_setInq_store s s.inq d r 4⟩

/-- A storing instruction whose parameters resolve and whose operation answers the range check of `v`: it stores `v`, or
faults. -/
theorem exec_storing_inRange {op} {v : Int} (hi : Storing i ma mb mc op) (ha : Reads s 1 ma a) (hb : Reads s 2 mb b)
    (hd : Designates s 3 mc d) (hop : op a b = inRange v) :
    (InWord v → ∃ t, exec i s = .next t ∧ Stores s t d v 4 s.inq) ∧
      (¬ InWord v → s.pc < s.memSize → exec i s = .next (faulted s .arithmeticOverflow v)) := by
  constructor
  · intro hw
    have hr := hop.trans (inRange_of_inWord hw)
    simpa only [Word.toInt_ofInt hw] using exec_storing_of_ok hi ha hb hd hr
  · intro hw hpc
    rw [exec_storing hi ha hb hd, hop, inRange_of_not_inWord hw, ← faultEntry_eq_faulted hpc]
    rfl

/-- Settles O9, by the rules of the storing instructions (`exec_storing_inRange`) at the exact sum. -/
theorem addStoresExactSum : Obligations.AddStoresExactSum :=
  ⟨selectedBy (fun _ _ _ => rfl) (fun _ _ _ => rfl), fun ma mb mc s => ⟨parametersFaultInOrder _ s,
    fun _ _ _ ha hb hd => exec_storing_inRange (.add ma mb mc) ha hb hd rfl⟩⟩

/-- Settles O10, as O9, at the exact product. -/
theorem mulStoresExactProduct : Obligations.MulStoresExactProduct :=
  ⟨selectedBy (fun _ _ _ => rfl) (fun _ _ _ => rfl), fun ma mb mc s => ⟨parametersFaultInOrder _ s,
    fun _ _ _ ha hb hd => exec_storing_inRange (.mul ma mb mc) ha hb hd rfl⟩⟩

theorem toInt_truth (x : Bool) : (truth x).toInt = if x then 1 else 0 := by cases x <;> rfl

/-- Settles O16: the operation always answers, with the truth of the comparison of the two values. -/
theorem lessThanStoresTruth : Obligations.LessThanStoresTruth := by
  refine ⟨selectedBy (fun _ _ _ => rfl) (fun _ _ _ => rfl), fun ma mb mc s => ⟨parametersFaultInOrder _ s, ?_⟩⟩
  intro a b d ha hb hd
  simpa [toInt_truth, lessThan] using exec_storing_of_ok (.lt ma mb mc) ha hb hd rfl

/-- Settles O17, as O16. -/
theorem equalsStoresTruth : Obligations.EqualsStoresTruth := by
  refine ⟨selectedBy (fun _ _ _ => rfl) (fun _ _ _ => rfl), fun ma mb mc s => ⟨parametersFaultInOrder _ s, ?_⟩⟩
  intro a b d ha hb hd
  simpa [toInt_truth, equals] using exec_storing_of_ok (.eq ma mb mc) ha hb hd rfl

/-! ### Input, output, the relative base and the halt -/

/-- Settles O11: the two cases of the queue (`exec_inp_of_cons`, `exec_inp_of_nil`), once the address is resolved. -/
theorem inStoresFrontOrSuspends : Obligations.InStoresFrontOrSuspends :=
  ⟨selectedBy (fun _ _ _ => rfl) (fun _ _ _ => rfl), fun _ s => ⟨parametersFaultInOrder _ s, fun d hd =>
    ⟨fun v rest hq => ⟨_, exec_inp_of_cons hd hq, stores_setInq_store s rest d v 2⟩, exec_inp_of_nil hd⟩⟩⟩

/-- Settles O12, by `exec_out`. -/
theorem outAppendsValue : Obligations.OutAppendsValue :=
  ⟨selectedBy (fun _ _ _ => rfl) (fun _ _ _ => rfl), fun _ s => ⟨parametersFaultInOrder _ s, fun _ ha => exec_out ha⟩⟩

/-- Settles O18: the range check of the sum passes and keeps it, or faults. -/
theorem adjustRelativeBaseAdds : Obligations.AdjustRelativeBaseAdds := by
  refine ⟨selectedBy (fun _ _ _ => rfl) (fun _ _ _ => rfl), fun m s => ⟨parametersFaultInOrder _ s, ?_⟩⟩
  intro a ha
  constructor
  · intro hw
    refine ⟨Word.ofInt (s.rb.toInt + a.toInt), Word.toInt_ofInt hw, ?_⟩
    rw [exec_arb ha, inRange_of_inWord hw]
    rfl
  · intro hw hpc
    rw [exec_of_operationFaults (.arb m a ha hw), faultEntry_eq_faulted hpc]

/-! ### The jumps -/

/-- A jump whose parameters resolve: taken to a non-negative target, faulting on a negative one, or not taken. -/
theorem exec_jumping_branches {test} (hi : Jumping i ma mb test) (ha : Reads s 1 ma a) (hb : Reads s 2 mb b) :
    (∀ x : Nat, test a = true → b.toInt = x → exec i s = .next { s with pc := x }) ∧
      (test a = true → b.toInt < 0 → s.pc < s.memSize →
        exec i s = .next (faulted s .negativeAddress b.toInt)) ∧
      (test a = false → exec i s = .next { s with pc := s.pc + 3 }) := by
  rw [exec_jumping hi ha hb]
  refine ⟨fun x htest hx => ?taken, fun htest hneg hpc => ?negative, fun htest => ?passed⟩
  case taken => rw [branch_eq_ok.mpr (.inl ⟨htest, x, hx, rfl⟩)]; rfl
  case negative =>
    rw [branch, if_pos htest, jumpTarget_eq_error.mpr ⟨hneg, rfl⟩, ← faultEntry_eq_faulted hpc]
    rfl
  case passed => rw [branch_eq_ok.mpr (.inr ⟨htest, rfl⟩)]; rfl

theorem nonZero_eq_true : nonZero a = true ↔ a.toInt ≠ 0 := decide_eq_true_iff

theorem nonZero_eq_false : nonZero a = false ↔ a.toInt = 0 := by simp [nonZero]

/-- Settles O13: the branches of a jump (`exec_jumping_branches`), its test being that the condition is not 0. -/
theorem jumpIfTrueBranches : Obligations.JumpIfTrueBranches := by
  refine ⟨selectedBy (fun _ _ _ => rfl) (fun _ _ _ => rfl), fun ma mb s => ⟨parametersFaultInOrder _ s, ?_⟩⟩
  intro a b ha hb
  simpa only [nonZero_eq_true, nonZero_eq_false] using exec_jumping_branches (.jt ma mb) ha hb

/-- Settles O14, as O13, the test being that the condition is 0. -/
theorem jumpIfFalseBranches : Obligations.JumpIfFalseBranches := by
  refine ⟨selectedBy (fun _ _ _ => rfl) (fun _ _ _ => rfl), fun ma mb s => ⟨parametersFaultInOrder _ s, ?_⟩⟩
  intro a b ha hb
  simpa only [Bool.not_eq_true', Bool.not_eq_false', nonZero_eq_true, nonZero_eq_false] using
    exec_jumping_branches (.jf ma mb) ha hb

/-! ### Modes and faults -/

/-- A completed instruction writes no diagnostic. -/
theorem Completes.diag_eq (h : Completes s i t) : t.diag = s.diag := by cases h <;> rfl

/-- The causes that are about a mode: a reserved digit, and an immediate write target (60_exceptions.md R148, R149). -/
def Cause.OfMode (c : Cause) : Prop := c = .invalidMode ∨ c = .immediateWriteTarget

theorem not_ofMode_of_addressFaults {v : Int} {c : Cause} {info : Int} (h : AddressFaults s v c info) : ¬ c.OfMode := by
  cases h <;> simp [Cause.OfMode]

theorem not_ofMode_of_operationFaults {c : Cause} {info : Int} (h : OperationFaults s i c info) : ¬ c.OfMode := by
  cases h <;> simp [Cause.OfMode]

/-- A parameter with an accepted mode faults for its address alone. -/
theorem not_ofMode_of_paramFaults {k : Nat} {p : Role × Mode} {c : Cause} {info : Int} (h : ParamFaults s k p c info)
    (hp : Mode.accepted p.1 p.2 = true) : ¬ c.OfMode := by
  obtain ⟨_ | _, m⟩ := p
  · rcases h with _ | ⟨_, _, -, ha⟩ | ⟨_, _, -, ha⟩ | _
    exacts [by simp [Cause.OfMode], not_ofMode_of_addressFaults ha, not_ofMode_of_addressFaults ha,
      by simp [Mode.accepted] at hp]
  · rcases h with _ | ⟨_, _, -, ha⟩ | _ | ⟨_, _, -, ha⟩ | _
    exacts [by simp [Cause.OfMode], not_ofMode_of_addressFaults ha, by simp [Mode.accepted] at hp,
      not_ofMode_of_addressFaults ha, by simp [Mode.accepted] at hp]

/-- A parameter that resolves has an accepted mode. -/
theorem accepted_of_resolves {k : Nat} {p : Role × Mode} (h : Resolves s k p) : Mode.accepted p.1 p.2 = true := by
  obtain ⟨_ | _, m⟩ := p <;> obtain ⟨_, h⟩ := h <;> cases h <;> rfl

theorem accepted_of_checkParams_ok {k : Nat} {ps : List (Role × Mode)} (h : checkParams s k ps = .ok ()) :
    ps.all (fun p => Mode.accepted p.1 p.2) = true := by
  induction ps generalizing k with
  | nil => rfl
  | cons p ps ih =>
    obtain ⟨hp, hps⟩ := checkParams_cons_eq_ok.mp h
    rw [List.all_cons, accepted_of_resolves hp, ih hps, Bool.and_self]

/-- An instruction with a mode that is not accepted has a faulty parameter. -/
theorem exists_firstFault_of_not_accepted (h : i.accepted = false) (s : State) : ∃ c info, FirstFault i s c info := by
  cases hp : checkParams s 1 i.params with
  | error f => exact ⟨f.cause, f.info, firstFault_iff_checkParams.mpr hp⟩
  | ok u => exact absurd (accepted_of_checkParams_ok hp) (by rw [← Instr.accepted, h]; nofun)

/-- Settles O5: a diagnostic written comes from a parameter or from the operation (`exec_cases`), and where the modes are
accepted neither gives a cause about a mode; where one is not, a parameter faults. -/
theorem acceptedModesDecideModeFaults : Obligations.AcceptedModesDecideModeFaults := by
  intro i s t h
  constructor
  · intro hacc hnone d hd
    suffices hmode : ¬ d.cause.OfMode by simpa [Cause.OfMode] using hmode
    obtain hc | ⟨c, info, rfl, hf | hf⟩ := exec_cases h
    · rw [hc.diag_eq, hnone] at hd
      cases hd
    · cases hd
      obtain ⟨j, p, hp, -, hf⟩ := hf
      exact not_ofMode_of_paramFaults hf (List.all_eq_true.mp hacc p (List.mem_of_getElem? hp))
    · cases hd
      exact not_ofMode_of_operationFaults hf
  · intro hacc
    obtain ⟨c, info, hf⟩ := exists_firstFault_of_not_accepted hacc s
    cases (exec_of_firstFault hf).symm.trans h
    exact ⟨rfl, fun hpc => ⟨c, info, hf, faultEntry_eq_faulted hpc⟩⟩

end

end Sys2Proof.Machine

/-! SUPPORT. The proofs about one step (47_execution_loop.md, 60_exceptions.md): its ordered checks, the run state it
leaves, and who writes what. -/

namespace Sys2Proof.Machine

open Sys2Proof.Safety

section
variable {s t : State} {i : Instr} {c : Cause} {info : Int}

/-! ### The fetch -/

theorem step_of_decode (hr : s.rs = .running) (hpc : s.pc < s.memSize) (hd : decode (s.cell s.pc) = .ok i) :
    step s = exec i s := step_of_fetch_ok hr (fetch_eq_ok.mpr ⟨hpc, hd⟩)

/-- Settles O20, by `step_of_decode`. -/
theorem stepRunsDecodedInstr : Obligations.StepRunsDecodedInstr := fun _ _ => step_of_decode

theorem step_of_decode_error {e : DecodeError} (hr : s.rs = .running) (hpc : s.pc < s.memSize)
    (hd : decode (s.cell s.pc) = .error e) : step s = .next (s.faultEntry ⟨.unknownOpcode, e.info⟩) :=
  step_of_fetch_error hr (fetch_eq_error.mpr (.inr ⟨hpc, e, hd, rfl⟩))

theorem step_of_fetch_beyond (hr : s.rs = .running) (hpc : s.memSize ≤ s.pc) :
    step s = .next (s.faultEntry ⟨.exhaustedMemory, s.pc⟩) :=
  step_of_fetch_error hr (fetch_eq_error.mpr (.inl ⟨hpc, rfl⟩))

theorem step_of_negative (hr : s.rs = .running) (hpc : s.pc < s.memSize) (h : (s.cell s.pc).toInt < 0) :
    step s = .next (s.faultEntry ⟨.unknownOpcode, (s.cell s.pc).toInt⟩) :=
  step_of_decode_error hr hpc (decode_eq_error.mpr (.inl ⟨h, rfl⟩))

theorem step_of_unknown (hr : s.rs = .running) (hpc : s.pc < s.memSize) (h : 0 ≤ (s.cell s.pc).toInt)
    (hop : (s.cell s.pc).toInt % 100 ∉ opcodes) :
    step s = .next (s.faultEntry ⟨.unknownOpcode, (s.cell s.pc).toInt % 100⟩) := by
  rw [step_of_decode_error hr hpc (decode_eq_error.mpr (.inr ⟨h, hop, rfl⟩)), DecodeError.info, natCast_mod_hundred h]

/-- Settles O21, by the two ways a word selects no instruction. -/
theorem unknownWordsFault : Obligations.UnknownWordsFault := by
  intro s hr hpc
  simp only [← faultEntry_eq_faulted hpc]
  exact ⟨step_of_negative hr hpc, step_of_unknown hr hpc⟩

/-- Settles O15: the jump is taken (`exec_jumping_branches`), and the Machine it leaves has its `pc` beyond memory. -/
theorem jumpBeyondMemoryFaultsAtFetch : Obligations.JumpBeyondMemoryFaultsAtFetch := by
  intro i ma mb s a b x hr hpc hd hjump ha hb hx hsize
  have htaken : exec i s = .next (s.jump x) := by
    obtain ⟨rfl, hcond⟩ | ⟨rfl, hcond⟩ := hjump
    · exact (exec_jumping_branches (.jt ma mb) ha hb).1 x (nonZero_eq_true.mpr hcond) hx
    · exact (exec_jumping_branches (.jf ma mb) ha hb).1 x (by simpa using nonZero_eq_false.mpr hcond) hx
  refine ⟨s.jump x, (step_of_decode hr hpc hd).trans htaken, rfl, ?_⟩
  rw [step_of_fetch_beyond (s := s.jump x) hr hsize, State.faultEntry, fetchedWord_of_le (s := s.jump x) hsize]
  rfl

/-! ### The ordered checks -/

theorem stepFaults_of_fetch_error {f : Raised} (h : fetch s = .error f) : StepFaults s f.cause f.info := by
  obtain ⟨hpc, rfl⟩ | ⟨hpc, e, he, rfl⟩ := fetch_eq_error.mp h
  · exact .fetch hpc
  · obtain ⟨hneg, rfl⟩ | ⟨hpos, hop, rfl⟩ := decode_eq_error.mp he
    · exact .negativeWord hpc hneg
    · rw [unknownWord, DecodeError.info, natCast_mod_hundred hpos]
      exact .unknownOpcode hpc hpos hop

/-- What a step of a Running Machine can be: the instruction it is at completes, or the ordered checks give a fault. -/
theorem step_running_cases (hr : s.rs = .running) (h : step s = .next t) :
    (∃ i, s.pc < s.memSize ∧ decode (s.cell s.pc) = .ok i ∧ exec i s = .next t ∧ Completes s i t) ∨
      ∃ c info, t = s.faultEntry ⟨c, info⟩ ∧ StepFaults s c info := by
  obtain ⟨i, hf, hs⟩ | ⟨f, hf, hs⟩ := step_running hr
  · obtain ⟨hpc, hd⟩ := fetch_eq_ok.mp hf
    rw [hs] at h
    obtain hc | ⟨c, info, rfl, hp | ho⟩ := exec_cases h
    · exact .inl ⟨i, hpc, hd, h, hc⟩
    · exact .inr ⟨c, info, rfl, .parameter i c info hpc hd hp⟩
    · exact .inr ⟨c, info, rfl, .operation i c info hpc hd ho⟩
  · cases hs.symm.trans h
    exact .inr ⟨f.cause, f.info, rfl, stepFaults_of_fetch_error hf⟩

theorem step_of_stepFaults (hr : s.rs = .running) (h : StepFaults s c info) :
    step s = .next (s.faultEntry ⟨c, info⟩) := by
  cases h with
  | fetch hpc => exact step_of_fetch_beyond hr hpc
  | negativeWord hpc hneg => exact step_of_negative hr hpc hneg
  | unknownOpcode hpc hpos hop => exact step_of_unknown hr hpc hpos hop
  | parameter i _ _ hpc hd hp => exact (step_of_decode hr hpc hd).trans (exec_of_firstFault hp)
  | operation i _ _ hpc hd ho => exact (step_of_decode hr hpc hd).trans (exec_of_operationFaults ho)

/-- The run state in which an instruction completes: an IN that waits suspends, HLT halts, all else leaves it. -/
theorem Completes.rs_cases (h : Completes s i t) : t.rs = s.rs ∨
    (t = s.suspend ∧ s.inq = [] ∧ ∃ m d, i = .inp m ∧ Designates s 1 m d) ∨ (t = s.halt ∧ i = .hlt) := by
  cases h with
  | waits hd hq => exact .inr (.inl ⟨rfl, hq, _, _, rfl, hd⟩)
  | halted => exact .inr (.inr ⟨rfl, rfl⟩)
  | stored | received | sent | jumped | passed | rebased => exact .inl rfl

/-- The outcomes of a step of a Running Machine, by the run state it leaves. -/
theorem step_outcomes (hr : s.rs = .running) (h : step s = .next t) :
    (t.rs = .running ∧ t.diag = s.diag ∧ ∃ i, decode (s.cell s.pc) = .ok i ∧ exec i s = .next t) ∨
      (t = s.suspend ∧ AtEmptyIn s) ∨ (t = s.halt ∧ AtHalt s) ∨
      ∃ c info, t = s.faultEntry ⟨c, info⟩ ∧ StepFaults s c info := by
  obtain ⟨i, hpc, hd, he, hc⟩ | hf := step_running_cases hr h
  · obtain hrs | ⟨rfl, hq, m, d, rfl, hdes⟩ | ⟨rfl, rfl⟩ := hc.rs_cases
    · exact .inl ⟨hrs.trans hr, hc.diag_eq, i, hd, he⟩
    · exact .inr (.inl ⟨rfl, hpc, hq, m, d, hd, hdes⟩)
    · exact .inr (.inr (.inl ⟨rfl, hpc, hd⟩))
  · exact .inr (.inr (.inr hf))

theorem stepFaults_iff_step (hr : s.rs = .running) : StepFaults s c info ↔ step s = .next (s.faultEntry ⟨c, info⟩) := by
  refine ⟨step_of_stepFaults hr, fun h => ?_⟩
  obtain ⟨hrs, -⟩ | ⟨ht, -⟩ | ⟨ht, -⟩ | ⟨c', info', ht, hf⟩ := step_outcomes hr h
  · cases hrs
  · cases congrArg State.rs ht
  · cases congrArg State.rs ht
  · cases State.faultEntry_inj.mp ht
    exact hf

theorem atEmptyIn_iff_step (hr : s.rs = .running) : AtEmptyIn s ↔ step s = .next s.suspend := by
  constructor
  · rintro ⟨hpc, hq, m, d, hd, hdes⟩
    exact (step_of_decode hr hpc hd).trans (exec_inp_of_nil hdes hq)
  · intro h
    obtain ⟨hrs, -⟩ | ⟨-, hin⟩ | ⟨ht, -⟩ | ⟨c, info, ht, -⟩ := step_outcomes hr h
    · cases hrs
    · exact hin
    · cases congrArg State.rs ht
    · cases congrArg State.rs ht

theorem atHalt_iff_step (hr : s.rs = .running) : AtHalt s ↔ step s = .next s.halt := by
  constructor
  · rintro ⟨hpc, hd⟩
    exact step_of_decode hr hpc hd
  · intro h
    obtain ⟨hrs, -⟩ | ⟨ht, -⟩ | ⟨-, hhalt⟩ | ⟨c, info, ht, -⟩ := step_outcomes hr h
    · cases hrs
    · cases congrArg State.rs ht
    · exact hhalt
    · cases congrArg State.rs ht

/-- Fault entry written out. -/
theorem faultEntry_eq (s : State) (c : Cause) (info : Int) : s.faultEntry ⟨c, info⟩ =
    { s with
      rs := .faulted
      diag := some ⟨c, s.pc, if s.pc < s.memSize then some (s.cell s.pc) else none, some info⟩ } := by
  rcases lt_or_ge s.pc s.memSize with h | h
  · rw [State.faultEntry, fetchedWord_of_lt h, if_pos h]
  · rw [State.faultEntry, fetchedWord_of_le h, if_neg (not_lt.mpr h)]

/-- Settles O22: a step's outcomes exclude each other (`step_outcomes`), and each is as its checks say
(`stepFaults_iff_step`, `atEmptyIn_iff_step`). -/
theorem stepFaultsByOrderedChecks : Obligations.StepFaultsByOrderedChecks := by
  intro s hr
  simp only [← faultEntry_eq]
  exact ⟨fun _ _ => stepFaults_iff_step hr, atEmptyIn_iff_step hr⟩

/-! ### The run state -/

theorem run_of_terminal (h : s.rs = .halted ∨ s.rs = .faulted) (n : Nat) : run n s = .next s := by
  rw [run_eq, if_pos h]

theorem run_of_suspended (h : s.rs = .suspended) (n : Nat) : run n s = runLoop n s.resume := by
  rw [run_eq, if_neg (by simp [h])]

theorem run_of_running (h : s.rs = .running) (n : Nat) : run n s = runLoop n s := by
  have hentry : s.resume = s := by cases s; cases h; rfl
  rw [run_eq, if_neg (by simp [h]), hentry]

/-- Settles O19: the step at a HLT leaves a Halted Machine, where the loop is over. -/
theorem haltStops : Obligations.HaltStops := by
  refine ⟨selectedBy (fun _ _ _ => rfl) (fun _ _ _ => rfl), fun s => ⟨rfl, fun hr hpc hd n => ?_⟩⟩
  have hstep : step s = .next s.halt := (atHalt_iff_step hr).mp ⟨hpc, hd⟩
  have hrun : run (n + 1) s = .next s.halt := by
    rw [run_of_running hr, runLoop_succ_running hr hstep, runLoop_of_stopped (by simp)]
  rw [transact, hrun]
  rfl

/-- Settles O41, by `run_of_terminal`. -/
theorem runOnTerminalDoesNothing : Obligations.RunOnTerminalDoesNothing := by
  intro n s
  constructor
  · intro h
    simp [transact, run_of_terminal (.inl h), State.runResult, h]
  · intro h
    simp [transact, run_of_terminal (.inr h), State.runResult, h]

/-- A transaction but `run` writes the queues alone. -/
theorem transact_ne_run {op : Transaction} {r : Reply} (hop : ∀ n, op ≠ .run n) (h : transact op s = .next (r, t)) :
    ∃ q q', t = { s with inq := q, outq := q' } := by
  obtain ⟨n, rfl, -⟩ | ⟨v, -, rfl, -⟩ | ⟨-, -, rfl, -⟩ | ⟨v, rest, -, -, rfl, -⟩ | ⟨-, rfl, -⟩ | ⟨-, rfl, -⟩ :=
    transact_cases h
  exacts [absurd rfl (hop n), ⟨_, _, rfl⟩, ⟨_, _, rfl⟩, ⟨_, _, rfl⟩, ⟨_, _, rfl⟩, ⟨_, _, rfl⟩]

/-- A transaction on a Halted or Faulted Machine writes the queues alone. -/
theorem transact_of_terminal {op : Transaction} {r : Reply} (hs : s.rs = .halted ∨ s.rs = .faulted)
    (h : transact op s = .next (r, t)) : ∃ q q', t = { s with inq := q, outq := q' } := by
  obtain ⟨n, -, hrun, -⟩ | hop := transact_cases h
  · rw [run_of_terminal hs] at hrun
    cases hrun
    exact ⟨_, _, rfl⟩
  · refine transact_ne_run (fun n hn => ?_) h
    subst hn
    simp at hop

theorem step_halts (hr : s.rs = .running) (h : step s = .next t) (ht : t.rs = .halted) : t = s.halt := by
  obtain ⟨hrs, -⟩ | ⟨rfl, -⟩ | ⟨rfl, -⟩ | ⟨c, info, rfl, -⟩ := step_outcomes hr h
  exacts [by simp [hrs] at ht, by simp at ht, rfl, by simp at ht]

theorem step_stays_running (hr : s.rs = .running) (h : step s = .next t) (ht : t.rs = .running) :
    t.diag = s.diag ∧ ∃ i, decode (s.cell s.pc) = .ok i ∧ exec i s = .next t := by
  obtain ⟨-, hrow⟩ | ⟨rfl, -⟩ | ⟨rfl, -⟩ | ⟨c, info, rfl, -⟩ := step_outcomes hr h
  exacts [hrow, by simp at ht, by simp at ht, by simp at ht]

/-- Settles O23: for a Running Machine each new run state pins the state a step leaves (`step_faults`, `step_halts`,
`step_suspends`), and that state pins the event; for the others, what a transaction writes. -/
theorem runStateTransitionTable : Obligations.RunStateTransitionTable := by
  refine ⟨fun s hr => ?running, fun s hs => ⟨run_of_suspended hs, fun op t r hop h => ?suspended⟩,
    fun s hs op t r => transact_of_terminal hs⟩
  case suspended =>
    obtain ⟨q, q', rfl⟩ := transact_ne_run hop h
    exact hs
  case running =>
    obtain ⟨t, h⟩ := step_next s
    have hfaulted : t.rs = .faulted ↔ ∃ c info, t = s.faultEntry ⟨c, info⟩ := by
      constructor
      · intro ht
        obtain ⟨f, rfl⟩ := step_faults hr h ht
        exact ⟨f.cause, f.info, rfl⟩
      · rintro ⟨c, info, rfl⟩
        rfl
    have hhalted : t.rs = .halted ↔ t = s.halt := ⟨step_halts hr h, by rintro rfl; rfl⟩
    have hsuspended : t.rs = .suspended ↔ t = s.suspend :=
      ⟨fun ht => (step_suspends hr h ht).1, by rintro rfl; rfl⟩
    have hdiag : t.rs = .faulted → ∃ d, t = { s with rs := .faulted, diag := some d } := by
      intro ht
      obtain ⟨c, info, rfl⟩ := hfaulted.mp ht
      exact ⟨_, rfl⟩
    refine ⟨t, h, ?_⟩
    simp only [stepFaults_iff_step hr, atHalt_iff_step hr, atEmptyIn_iff_step hr, h, Host.Outcome.next.injEq]
    exact ⟨hfaulted, hdiag, hhalted, hhalted.mp, hsuspended, hsuspended.mp, step_stays_running hr h⟩

end

end Sys2Proof.Machine

/-! SUPPORT. The proofs about what an instruction leaves unchanged and about the invariants of a Machine (10_state.md). -/

namespace Sys2Proof.Machine

open Sys2Proof.Safety

section
variable {s t : State} {i : Instr}

/-! ### What a completed instruction writes -/

theorem Completes.memSize_eq (h : Completes s i t) : t.memSize = s.memSize := by cases h <;> rfl

theorem Completes.pc_writer (h : Completes s i t) (hne : t.pc ≠ s.pc) : t.rs = s.rs ∧ i ≠ .hlt := by
  cases h with
  | waits | halted => exact absurd rfl hne
  | stored hi | jumped hi | passed hi => exact ⟨rfl, by rintro rfl; cases hi⟩
  | received | sent | rebased => exact ⟨rfl, nofun⟩

theorem Completes.rb_writer (h : Completes s i t) (hne : t.rb ≠ s.rb) : ∃ m, i = .arb m := by
  cases h with
  | rebased => exact ⟨_, rfl⟩
  | stored | received | waits | sent | jumped | passed | halted => exact absurd rfl hne

theorem Completes.inq_writer (h : Completes s i t) (hne : t.inq ≠ s.inq) : ∃ m, i = .inp m := by
  cases h with
  | received => exact ⟨_, rfl⟩
  | stored | waits | sent | jumped | passed | rebased | halted => exact absurd rfl hne

theorem Completes.outq_writer (h : Completes s i t) (hne : t.outq ≠ s.outq) : ∃ m, i = .out m := by
  cases h with
  | sent => exact ⟨_, rfl⟩
  | stored | received | waits | jumped | passed | rebased | halted => exact absurd rfl hne

/-- A completed instruction leaves memory, or writes one cell of it, which its write parameter designates. -/
theorem Completes.mem_cases (h : Completes s i t) : t.mem = s.mem ∨
    ∃ k m d v, i.params[k]? = some (.write, m) ∧ Designates s (k + 1) m d ∧ t.mem = s.mem.set d v := by
  cases h with
  | stored hi _ _ hd => exact .inr ⟨2, _, _, _, by rw [hi.params_eq]; rfl, hd, rfl⟩
  | received hd => exact .inr ⟨0, _, _, _, rfl, hd, rfl⟩
  | waits | sent | jumped | passed | rebased | halted => exact .inl rfl

theorem Completes.cell_writer (h : Completes s i t) {x : Nat} (hne : t.cell x ≠ s.cell x) :
    ∃ m k, i.params[k]? = some (.write, m) ∧ Designates s (k + 1) m x := by
  obtain hmem | ⟨k, m, d, v, hp, hd, hmem⟩ := h.mem_cases
  · exact absurd (by rw [State.cell, hmem, State.cell]) hne
  · obtain rfl : x = d := by
      by_contra hx
      exact hne (by rw [State.cell, hmem, Memory.get_set, if_neg hx, State.cell])
    exact ⟨m, k, hp, hd⟩

/-- Settles O26: a step that is no fault entry is an instruction that completes (`step_running_cases`), and each piece of
state has its writer among those. -/
theorem stateIsWrittenOnlyByItsWriters : Obligations.StateIsWrittenOnlyByItsWriters := by
  intro s t h
  by_cases hr : s.rs = .running
  · have hrs : t.rs ≠ s.rs → (t.rs = .suspended ∧ AtEmptyIn s) ∨ (t.rs = .halted ∧ AtHalt s) ∨
        (t.rs = .faulted ∧ ∃ c info, StepFaults s c info) := by
      intro hne
      obtain ⟨ht, -⟩ | ⟨rfl, hin⟩ | ⟨rfl, hhalt⟩ | ⟨c, info, rfl, hf⟩ := step_outcomes hr h
      exacts [absurd (ht.trans hr.symm) hne, .inl ⟨rfl, hin⟩, .inr (.inl ⟨rfl, hhalt⟩), .inr (.inr ⟨rfl, c, info, hf⟩)]
    obtain ⟨i, -, hd, -, hc⟩ | ⟨c, info, rfl, hf⟩ := step_running_cases hr h
    · refine ⟨hc.memSize_eq, fun hne => ?_, fun hne => ?_, hrs, fun hne => absurd hc.diag_eq hne, fun hne => ?_,
        fun hne => ?_, fun x hne => ?_⟩
      · obtain ⟨ht, hi⟩ := hc.pc_writer hne
        exact ⟨ht.trans hr, i, hd, hi⟩
      · obtain ⟨m, rfl⟩ := hc.rb_writer hne
        exact ⟨m, hd⟩
      · obtain ⟨m, rfl⟩ := hc.inq_writer hne
        exact ⟨m, hd⟩
      · obtain ⟨m, rfl⟩ := hc.outq_writer hne
        exact ⟨m, hd⟩
      · obtain ⟨m, k, hp, hdes⟩ := hc.cell_writer hne
        exact ⟨i, m, k, hd, hp, hdes⟩
    · exact ⟨rfl, absurd rfl, absurd rfl, hrs, fun _ => ⟨rfl, c, info, hf⟩, absurd rfl, absurd rfl,
        fun x => absurd rfl⟩
  · cases (step_of_stopped hr).symm.trans h
    exact ⟨rfl, absurd rfl, absurd rfl, absurd rfl, absurd rfl, absurd rfl, absurd rfl, fun x => absurd rfl⟩

/-! ### Frames -/

/-- A storing instruction ends in a store at the address of its third parameter and an advance, or in a fault. -/
theorem exec_storing_next {ma mb mc : Mode}
    (hi : i = .add ma mb mc ∨ i = .mul ma mb mc ∨ i = .lt ma mb mc ∨ i = .eq ma mb mc) (h : exec i s = .next t) :
    (∃ d v, wrAddr s 3 mc = .ok d ∧ t = (s.store d v).advance 4) ∨ ∃ f, t = s.faultEntry f := by
  rcases hi with rfl | rfl | rfl | rfl
  · exact (execAdd_next h).imp_left fun ⟨_, _, d, r, _, _, hd, _, ht⟩ => ⟨d, r, hd, ht⟩
  · exact (execMul_next h).imp_left fun ⟨_, _, d, r, _, _, hd, _, ht⟩ => ⟨d, r, hd, ht⟩
  · exact (execLt_next h).imp_left fun ⟨_, _, d, _, _, hd, ht⟩ => ⟨d, _, hd, ht⟩
  · exact (execEq_next h).imp_left fun ⟨_, _, d, _, _, hd, ht⟩ => ⟨d, _, hd, ht⟩

/-- Settles O28: a store leaves every other cell and register, and a fault leaves them all (`exec_storing_next`). -/
theorem storingInstrFrame : Obligations.StoringInstrFrame := by
  intro i ma mb mc s t hi h
  obtain ⟨d, v, hd, rfl⟩ | ⟨f, rfl⟩ := exec_storing_next hi h
  · refine ⟨rfl, rfl, rfl, rfl, ?_, ?_, .inl ⟨rfl, rfl⟩⟩
    · intro c hc x hx
      cases hd.symm.trans hc
      simp [hx]
    · intro f hf
      cases hd.symm.trans hf
  · exact ⟨rfl, rfl, rfl, rfl, fun _ _ _ _ => rfl, fun _ _ _ => rfl, .inr ⟨rfl, rfl, fun _ => rfl⟩⟩

/-- Settles O29, by the three outcomes of IN. -/
theorem inFrame : Obligations.InFrame := by
  intro ma s t h
  obtain ⟨d, hd, hq, rfl⟩ | ⟨d, v, rest, hd, hq, rfl⟩ | ⟨f, rfl⟩ := execIn_next h
  · exact ⟨rfl, rfl, rfl, fun _ _ _ _ => rfl, fun _ _ _ => rfl, .inr (.inl ⟨rfl, rfl, rfl, rfl, fun _ => rfl⟩)⟩
  · refine ⟨rfl, rfl, rfl, ?_, ?_, .inl ⟨rfl, rfl, v, hq⟩⟩
    · intro c hc x hx
      cases hd.symm.trans hc
      simp [hx]
    · intro f hf
      cases hd.symm.trans hf
  · exact ⟨rfl, rfl, rfl, fun _ _ _ _ => rfl, fun _ _ _ => rfl, .inr (.inr ⟨rfl, rfl, rfl, fun _ => rfl⟩)⟩

/-- Settles O30, by the outcomes of each of the five instructions. -/
theorem nonStoringInstrFrame : Obligations.NonStoringInstrFrame := by
  rintro i ma mb s t (rfl | rfl | rfl | rfl | rfl) h
  · obtain ⟨a, -, rfl⟩ | ⟨f, rfl⟩ := execOut_next h <;> simp
  · obtain ⟨_, _, -, -, ⟨-, x, -, rfl⟩ | ⟨-, rfl⟩⟩ | ⟨f, rfl⟩ := execJt_next h <;> simp
  · obtain ⟨_, _, -, -, ⟨-, x, -, rfl⟩ | ⟨-, rfl⟩⟩ | ⟨f, rfl⟩ := execJf_next h <;> simp
  · obtain ⟨a, r, -, -, rfl⟩ | ⟨f, rfl⟩ := execArb_next h <;> simp
  · obtain rfl := execHlt_next h
    simp

/-! ### The invariant -/

theorem designates_addr_lt {k : Nat} {m : Mode} {a : Nat} (h : Designates s k m a) : a < s.memSize :=
  wrAddr_lt (wrAddr_eq_ok.mpr h)

/-- While a Machine is not Faulted its invariant is about memory alone, and it has no diagnostic. -/
theorem inv_iff_of_not_faulted (hrs : s.rs ≠ .faulted) : Inv s ↔
    s.mem.wf = true ∧ (∀ c ∈ s.mem, c.1 < s.memSize) ∧ s.memSize ≤ Config.maxMemSize ∧ s.diag = none := by
  constructor
  · intro h
    have hdiag : ¬ s.diag.isSome = true := fun hd => hrs (h.diagIff.mp hd)
    exact ⟨h.memWf, h.memBound, h.sizeBound, by simpa using hdiag⟩
  · rintro ⟨hwf, hbound, hsize, hdiag⟩
    exact ⟨hwf, hbound, hsize, by simp [hdiag, hrs], by simp [hdiag]⟩

theorem Completes.rs_ne_faulted (h : Completes s i t) (hr : s.rs ≠ .faulted) : t.rs ≠ .faulted := by
  obtain hrs | ⟨rfl, -⟩ | ⟨rfl, -⟩ := h.rs_cases
  exacts [hrs ▸ hr, nofun, nofun]

/-- A completed instruction keeps the invariant: it leaves memory canonical, and any cell it writes exists. -/
theorem Completes.inv (h : Completes s i t) (hr : s.rs ≠ .faulted) (hs : Inv s) : Inv t := by
  obtain ⟨hwf, hbound, hsize, hdiag⟩ := (inv_iff_of_not_faulted hr).mp hs
  refine (inv_iff_of_not_faulted (h.rs_ne_faulted hr)).mpr ?_
  rw [h.memSize_eq, h.diag_eq]
  obtain hmem | ⟨k, m, d, v, -, hd, hmem⟩ := h.mem_cases <;> rw [hmem]
  · exact ⟨hwf, hbound, hsize, hdiag⟩
  · refine ⟨Memory.wf_set hwf d v, fun c hc => ?_, hsize, hdiag⟩
    obtain hcd | hold := Memory.mem_set hc
    exacts [hcd ▸ designates_addr_lt hd, hbound c hold]

/-- Fault entry with a fault of the ordered checks keeps the invariant: only the failed fetch has no word. -/
theorem inv_faultEntry {c : Cause} {info : Int} (hf : StepFaults s c info) (hs : Inv s) :
    Inv (s.faultEntry ⟨c, info⟩) where
  memWf := hs.memWf
  memBound := hs.memBound
  sizeBound := hs.sizeBound
  diagIff := by simp
  diagPrecise := by
    rintro d ⟨⟩
    refine ⟨rfl, rfl, rfl, fun hnone => ?_⟩
    have hpc : s.memSize ≤ s.pc := by
      by_contra hlt
      rw [fetchedWord_of_lt (not_le.mp hlt)] at hnone
      cases hnone
    cases hf with
    | fetch => exact ⟨rfl, rfl⟩
    | negativeWord hlt | unknownOpcode hlt | parameter _ _ _ hlt | operation _ _ _ hlt =>
      exact absurd hlt (not_lt.mpr hpc)

/-- Settles O37: a step completes an instruction (`Completes.inv`), enters a fault (`inv_faultEntry`) or, on a stopped
Machine, does nothing. -/
theorem invKeptByEveryStep : Obligations.InvKeptByEveryStep := by
  intro s t hs h
  by_cases hr : s.rs = .running
  · obtain ⟨i, -, -, -, hc⟩ | ⟨c, info, rfl, hf⟩ := step_running_cases hr h
    exacts [hc.inv (by simp [hr]) hs, inv_faultEntry hf hs]
  · cases (step_of_stopped hr).symm.trans h
    exact hs

/-- Settles O36: loading a program gives a canonical memory that ends where the program does. -/
theorem invHoldsAtConstruction : Obligations.InvHoldsAtConstruction := by
  intro p t h
  obtain ⟨⟨hfits, hmax⟩, rfl⟩ := construct_eq_next.mp h
  refine (inv_iff_of_not_faulted (by simp [State.reset])).mpr ⟨Memory.wf_load _ _, fun c hc => ?_, hmax, rfl⟩
  have hlt := Memory.load_below _ _ c hc
  simp only at hlt ⊢
  omega

/-- Reset's Machine is a construction. -/
theorem construct_reset : construct { program := [], memSize := Config.resetMemSize } = .next State.reset :=
  construct_eq_next.mpr ⟨⟨Nat.zero_le _, le_refl _⟩, rfl⟩

/-- Settles O34, by `construct_reset`. -/
theorem resetIsEmptyConstruction : Obligations.ResetIsEmptyConstruction := ⟨⟨_, construct_reset⟩, fun _ => rfl⟩

/-- Settles O35, as the case of O36 that reset's Machine is. -/
theorem invHoldsAtReset : Obligations.InvHoldsAtReset := invHoldsAtConstruction _ _ construct_reset

/-- Settles O32, by what a construction gives (`construct_eq_next`). -/
theorem constructionGivesResetValues : Obligations.ConstructionGivesResetValues := fun _ hfits hmax =>
  ⟨_, construct_eq_next.mpr ⟨⟨hfits, hmax⟩, rfl⟩, rfl, rfl, rfl, rfl, rfl, rfl, rfl⟩

/-- Settles O33: either bound of the precondition fails. -/
theorem constructionOutsidePreconditionIsRefused : Obligations.ConstructionOutsidePreconditionIsRefused := by
  intro p hp
  refine if_neg fun ⟨hfits, hmax⟩ => ?_
  rw [Config.maxMemSize] at hmax
  omega

/-! ### The bound of the instruction pointer -/

/-- A completed instruction keeps `pc` inside the bound: it advances past words that exist, or jumps to the value of a
word. -/
theorem Completes.pc_le (h : Completes s i t) (hs : PcBounded s) : t.pc ≤ Config.maxMemSize := by
  obtain ⟨hsize, hpc⟩ := hs
  cases h with
  | stored _ _ _ hd => have hword := designates_lt hd; simp only [State.advance_pc, State.store_pc]; omega
  | received hd => have hword := designates_lt hd; simp only [State.advance_pc, State.store_pc, State.setInq_pc]; omega
  | sent ha => have hword := reads_lt ha; simp only [State.advance_pc, State.pushOut_pc]; omega
  | passed _ _ hb => have hword := reads_lt hb; simp only [State.advance_pc]; omega
  | rebased ha => have hword := reads_lt ha; simp only [State.advance_pc, State.setRb_pc]; omega
  | @jumped _ _ _ _ _ b x _ _ _ _ hx =>
    have hmax := (Word.inWord_toInt b).2
    simp only [wordMax] at hmax
    simp only [State.jump_pc, Config.maxMemSize]
    omega
  | waits | halted => exact hpc

/-- Settles O39: a step completes an instruction (`Completes.pc_le`) or leaves `pc`. -/
theorem pcBoundKeptByEveryStep : Obligations.PcBoundKeptByEveryStep := by
  intro s t hs h
  by_cases hr : s.rs = .running
  · obtain ⟨i, -, -, -, hc⟩ | ⟨c, info, rfl, -⟩ := step_running_cases hr h
    · exact ⟨hc.memSize_eq ▸ hs.size, hc.pc_le hs⟩
    · exact ⟨hs.size, hs.pc⟩
  · cases (step_of_stopped hr).symm.trans h
    exact hs

end

end Sys2Proof.Machine

/-! SUPPORT. The proofs about runs and the host (47_execution_loop.md, 48_host_interface.md): what a run keeps, where it
returns, the queue transactions, and several Machines. -/

namespace Sys2Proof.Machine

open Sys2Proof.Safety

section
variable {s t : State}

/-! ### What a run keeps -/

/-- What every step keeps, the loop keeps. -/
theorem runLoop_keeps {P : State → Prop} (hstep : ∀ s t, P s → step s = .next t → P t) {n : Nat}
    (h : runLoop n s = .next t) (hs : P s) : P t := by
  refine runLoop_induction (P := fun _ s => P s → P t) ?stopped ?stepped h hs
  case stopped => exact fun _ _ ht => ht
  case stepped => exact fun _ s u _ hs _ ih hP => ih (hstep s u hP hs)

/-- What every step and the entry into the loop keep, `run` keeps. -/
theorem run_keeps {P : State → Prop} (hstep : ∀ s t, P s → step s = .next t → P t)
    (hresume : ∀ s, s.rs ≠ .faulted → P s → P s.resume) {n : Nat} (h : run n s = .next t) (hs : P s) : P t := by
  by_cases hterm : s.rs = .halted ∨ s.rs = .faulted
  · rw [run_of_terminal hterm] at h
    cases h
    exact hs
  · rw [run_eq, if_neg hterm] at h
    exact runLoop_keeps hstep h (hresume s (fun hf => hterm (.inr hf)) hs)

/-- A completed instruction takes from the front of the inbound queue and appends to the outbound queue. -/
theorem Completes.queues {i : Instr} (h : Completes s i t) :
    ∃ used new, s.inq = used ++ t.inq ∧ t.outq = s.outq ++ new := by
  cases h with
  | @received _ _ v _ _ hq => exact ⟨[v], [], by simp [hq], by simp⟩
  | @sent _ a => exact ⟨[], [a], by simp, by simp⟩
  | stored | waits | jumped | passed | rebased | halted => exact ⟨[], [], by simp, by simp⟩

theorem step_queues (h : step s = .next t) : ∃ used new, s.inq = used ++ t.inq ∧ t.outq = s.outq ++ new := by
  by_cases hr : s.rs = .running
  · obtain ⟨i, -, -, -, hc⟩ | ⟨c, info, rfl, -⟩ := step_running_cases hr h
    exacts [hc.queues, ⟨[], [], by simp, by simp⟩]
  · cases (step_of_stopped hr).symm.trans h
    exact ⟨[], [], by simp, by simp⟩

/-- Settles O27: what a step does to the queues (`step_queues`) composes. -/
theorem runKeepsQueueOrder : Obligations.RunKeepsQueueOrder := by
  intro n s t h
  refine run_keeps (P := fun u => ∃ used new, s.inq = used ++ u.inq ∧ u.outq = s.outq ++ new) ?step ?resume h
    ⟨[], [], by simp, by simp⟩
  case resume => exact fun _ _ hu => hu
  case step =>
    rintro u v ⟨used, new, hin, hout⟩ huv
    obtain ⟨used', new', hin', hout'⟩ := step_queues huv
    exact ⟨used ++ used', new ++ new', by simp [hin, hin'], by simp [hout, hout']⟩

theorem step_memSize (h : step s = .next t) : t.memSize = s.memSize := (stateIsWrittenOnlyByItsWriters s t h).1

/-- Resuming a Machine that is not Faulted keeps the invariant. -/
theorem inv_resume (hrs : s.rs ≠ .faulted) (hs : Inv s) : Inv s.resume :=
  (inv_iff_of_not_faulted (by simp)).mpr ((inv_iff_of_not_faulted hrs).mp hs)

/-- The invariant is not about the queues. -/
theorem inv_setQueues (q q' : List Word) (hs : Inv s) : Inv { s with inq := q, outq := q' } :=
  ⟨hs.memWf, hs.memBound, hs.sizeBound, hs.diagIff, hs.diagPrecise⟩

theorem inv_run {n : Nat} (h : run n s = .next t) (hs : Inv s) : Inv t ∧ t.memSize = s.memSize := by
  refine run_keeps (P := fun u => Inv u ∧ u.memSize = s.memSize) ?step ?resume h ⟨hs, rfl⟩
  case step => exact fun u v ⟨hu, hsize⟩ huv => ⟨invKeptByEveryStep u v hu huv, (step_memSize huv).trans hsize⟩
  case resume => exact fun u hrs ⟨hu, hsize⟩ => ⟨inv_resume hrs hu, hsize⟩

/-- Settles O38: `run` keeps the invariant as its steps do (`inv_run`); the other transactions write a queue, which the
invariant is not about. -/
theorem invKeptByEveryTransaction : Obligations.InvKeptByEveryTransaction := by
  intro op s t r hs h
  obtain ⟨n, rfl, hrun, rfl⟩ | ⟨v, rfl, rfl, rfl⟩ | ⟨rfl, hq, rfl, rfl⟩ | ⟨v, rest, rfl, hq, rfl, rfl⟩ |
    ⟨rfl, rfl, rfl⟩ | ⟨rfl, rfl, rfl⟩ := transact_cases h
  · obtain ⟨hinv, hsize⟩ := inv_run hrun hs
    exact ⟨hinv, hsize, fun _ _ => rfl, nofun, nofun, nofun, nofun⟩
  · exact ⟨inv_setQueues _ _ hs, rfl, nofun, by rintro _ ⟨⟩; exact ⟨rfl, rfl⟩, nofun, nofun, nofun⟩
  · refine ⟨hs, rfl, nofun, nofun, fun _ => ⟨by simp [hq], ?_⟩, nofun, nofun⟩
    cases t
    cases hq
    rfl
  · exact ⟨inv_setQueues _ _ hs, rfl, nofun, nofun, fun _ => ⟨by simp [hq], by simp [State.setOutq, hq]⟩, nofun, nofun⟩
  · exact ⟨inv_setQueues _ _ hs, rfl, nofun, nofun, nofun, fun _ => ⟨rfl, rfl⟩, nofun⟩
  · exact ⟨hs, rfl, nofun, nofun, nofun, nofun, fun _ => ⟨rfl, rfl⟩⟩

/-! ### Where a run returns -/

theorem runLoop_stops {n : Nat} (h : runLoop n s = .next t) : t.rs ≠ .running := by
  refine runLoop_induction (P := fun _ _ => t.rs ≠ .running) ?stopped ?stepped h
  case stopped => exact fun hr _ => hr
  case stepped => exact fun _ _ _ _ _ _ ih => ih

/-- Settles O40: the loop ends in a stopped Machine, and with more steps allowed in the same one (`runLoop_add`). -/
theorem runReturnsStopped : Obligations.RunReturnsStopped := by
  intro n s t h
  simp only [run_eq] at h ⊢
  split at h
  · next hterm =>
    cases h
    exact ⟨by rcases hterm with hr | hr <;> simp [hr], fun _ _ => if_pos hterm⟩
  · next hterm =>
    refine ⟨runLoop_stops h, fun m hm => ?_⟩
    obtain ⟨k, rfl⟩ := Nat.exists_eq_add_of_le hm
    rw [if_neg hterm, runLoop_add h k]

theorem core_run_of_stopped (hr : s.rs ≠ .running) (n : Nat) : core.run n s = .next s := by
  induction n with
  | zero => rfl
  | succ n ih => rw [core_run_succ (step_of_stopped hr), ih]

theorem runLoop_eq_next_iff_of_stopped (hr : s.rs ≠ .running) (n : Nat) :
    runLoop n s = .next t ↔ core.run n s = .next t ∧ t.rs ≠ .running := by
  rw [runLoop_of_stopped hr, core_run_of_stopped hr]
  refine ⟨?_, And.left⟩
  rintro ⟨⟩
  exact ⟨rfl, hr⟩

/-- The loop within `n` steps is the core's run of `n` steps, where that is at a stopped Machine. -/
theorem runLoop_eq_next_iff {n : Nat} : runLoop n s = .next t ↔ core.run n s = .next t ∧ t.rs ≠ .running := by
  induction n generalizing s with
  | zero =>
    by_cases hr : s.rs = .running
    · rw [runLoop_zero_running hr]
      refine ⟨nofun, ?_⟩
      rintro ⟨⟨⟩, hstop⟩
      exact absurd hr hstop
    · exact runLoop_eq_next_iff_of_stopped hr 0
  | succ n ih =>
    by_cases hr : s.rs = .running
    · obtain ⟨u, hu⟩ := step_next s
      rw [runLoop_succ_running hr hu, core_run_succ hu, ih]
    · exact runLoop_eq_next_iff_of_stopped hr (n + 1)

/-- Settles O44, by `runLoop_eq_next_iff`. -/
theorem runIsIteratedStep : Obligations.RunIsIteratedStep := by
  intro n s t hr
  rw [run_of_running hr]
  exact runLoop_eq_next_iff

theorem designates_resume {k : Nat} {m : Mode} {a : Nat} (h : Designates s k m a) : Designates s.resume k m a :=
  wrAddr_eq_ok.mp (wrAddr_eq_ok.mpr h : wrAddr s k m = .ok a)

/-- Settles O42: the first step of the loop is the same IN, which completes or waits as its queue says. -/
theorem runResumesAtTheSuspendedIn : Obligations.RunResumesAtTheSuspendedIn := by
  intro s m a n hr hpc hd hdes
  have hstep : step s.resume = exec (.inp m) s.resume := step_of_decode rfl hpc hd
  rw [run_of_suspended hr]
  constructor
  · intro hq
    have hback : s.resume.suspend = s := by cases s; cases hr; rfl
    have hwait := hstep.trans (exec_inp_of_nil (designates_resume hdes) hq)
    rw [runLoop_succ_running rfl hwait, hback, runLoop_of_stopped (by simp [hr])]
  · intro v rest hq
    have hstore := hstep.trans (exec_inp_of_cons (designates_resume hdes) hq)
    exact ⟨_, stores_setInq_store s.resume rest a v 2, runLoop_succ_running rfl hstore n⟩

/-! ### The queue transactions -/

/-- Settles O45, by `pushInputs_eq`. -/
theorem pushInputAppends : Obligations.PushInputAppends := pushInputs_eq

theorem drainOutput_of_nil (h : s.outq = []) : drainOutput s = ([], s) := by
  cases s
  cases h
  rfl

theorem popOutput_of_nil (h : s.outq = []) : popOutput s = (none, s) := by simp [popOutput, h]

theorem popOutput_of_cons {v : Word} {rest : List Word} (h : s.outq = v :: rest) :
    popOutput s = (some v, s.setOutq rest) := by simp [popOutput, h]

/-- Popping as often as there is output collects all of it, oldest first, and leaves none. -/
theorem popAll_eq_drainOutput {fuel : Nat} (h : s.outq.length ≤ fuel) : popAll fuel s = drainOutput s := by
  induction fuel generalizing s with
  | zero => exact (drainOutput_of_nil (List.eq_nil_of_length_eq_zero (Nat.le_zero.mp h))).symm
  | succ fuel ih =>
    cases hq : s.outq with
    | nil => simp [popAll, popOutput_of_nil hq, drainOutput_of_nil hq]
    | cons v rest =>
      have hrest : popAll fuel (s.setOutq rest) = drainOutput (s.setOutq rest) := ih (by simpa [hq] using h)
      simp only [popAll, popOutput_of_cons hq, hrest]
      simp [drainOutput, hq, State.setOutq]

/-- Settles O46, by `popAll_eq_drainOutput`. -/
theorem drainIsRepeatedPop : Obligations.DrainIsRepeatedPop := by
  intro s fuel h
  have hall := popAll_eq_drainOutput h
  exact ⟨rfl, hall, by rw [hall]; rfl⟩

/-! ### Several Machines -/

/-- A transaction on a host's Machines is one on the Machine named, put back in its place. -/
theorem fleetTransact_eq_next {k : Nat} {op : Transaction} {ms ms' : List State} {r : Reply} :
    fleetTransact k op ms = .next (r, ms') ↔
      ∃ s t, ms[k]? = some s ∧ transact op s = .next (r, t) ∧ ms' = ms.set k t := by
  unfold fleetTransact
  cases hk : ms[k]? with
  | none => simp
  | some s =>
    cases hop : transact op s with
    | next p => obtain ⟨r', t⟩ := p; simp [hop, eq_comm, and_assoc]
    | fault f => simp [hop]
    | refused f => simp [hop]

/-- Settles O47: the one place of the list written is the Machine's own. -/
theorem machinesAreIndependent : Obligations.MachinesAreIndependent := by
  intro k op ms ms' r h
  obtain ⟨s, t, hk, hop, rfl⟩ := fleetTransact_eq_next.mp h
  obtain ⟨hlt, -⟩ := List.getElem?_eq_some_iff.mp hk
  exact ⟨List.length_set, fun j hj => List.getElem?_set_ne (Ne.symm hj), s, t, hk, hop, List.getElem?_set_self hlt⟩

/-- Settles O48: a pop on the source and a push on the destination, two places of the list. -/
theorem forwardMovesOneValue : Obligations.ForwardMovesOneValue := by
  intro src dst ms a b v rest hne hsrc hdst hq
  obtain ⟨hsrclt, -⟩ := List.getElem?_eq_some_iff.mp hsrc
  obtain ⟨hdstlt, -⟩ := List.getElem?_eq_some_iff.mp hdst
  have hpop : fleetTransact src .popOutput ms = .next (.popped (some v), ms.set src (a.setOutq rest)) :=
    fleetTransact_eq_next.mpr ⟨a, a.setOutq rest, hsrc, by rw [transact, popOutput_of_cons hq], rfl⟩
  have hpush : fleetTransact dst (.pushInput v) (ms.set src (a.setOutq rest)) =
      .next (.pushed, (ms.set src (a.setOutq rest)).set dst (b.pushIn v)) :=
    fleetTransact_eq_next.mpr ⟨b, b.pushIn v, by rw [List.getElem?_set_ne hne, hdst], rfl, rfl⟩
  refine ⟨(ms.set src (a.setOutq rest)).set dst (b.pushIn v), ?moved, ?source, ?destination, fun j hsj hdj => ?others⟩
  case moved => simp only [fleetForward, hpop, hpush]
  case source => rw [List.getElem?_set_ne hne.symm, List.getElem?_set_self hsrclt]; rfl
  case destination => rw [List.getElem?_set_self (by simpa using hdstlt)]; rfl
  case others => rw [List.getElem?_set_ne hdj.symm, List.getElem?_set_ne hsj.symm]

end

end Sys2Proof.Machine
